-- ==== Sys2Proof/Word.lean ====
section
/-! DEFINITION. The fixed-width words of the block (00_scope.md R5, R6). All are unsigned. -/

namespace Sys2Proof

/-- One byte of an encoded form. -/
abbrev Byte := BitVec 8

/-- A value, `VALUE_W` = 64 bits (00_scope.md R5). -/
abbrev Value := BitVec 64

/-- A byte bus of `BUS_LANES` = 9 lanes (00_scope.md R5, 20_memory.md R42). -/
abbrev Bus := BitVec 72

/-- A length or count field, `LEN_W` = 4 bits (00_scope.md R5). -/
abbrev Len := BitVec 4

end Sys2Proof
end

