-- ==== Sys2Proof/Config.lean ====
section
/-! DEFINITION. The block's fixed parameters (00_scope.md R5), and the free values: constants with no body, for what the
spec leaves unspecified (10_state.md R29) and for what the world outside drives on pins the schedule does not name. -/

namespace Sys2Proof.Config

/-- `MIN_LEN`: the shortest encoded form, in bytes. -/
def minLen : Nat := 1

/-- `MAX_LEN`: the longest encoded form, in bytes; also the number of bus lanes. -/
def maxLen : Nat := 9

/-- `CLASS_BITS(n)`: payload bits of class n, 7n for n in 1..8 and 64 for class 9. -/
def classBits (n : Nat) : Nat := if n = 9 then 64 else 7 * n

/-- `LATENCY`: edges from a request transfer to its response being valid. One step of the model is one edge, and the
step that takes a request leaves its response valid, so this is the number of steps a response takes. -/
def latency : Nat := 1

/-! ## Power-up values (10_state.md R29: every field is unspecified before the first reset edge; log 7) -/

opaque powerUpEncValid : Bool
opaque powerUpEncLen : Len
opaque powerUpEncBytes : Bus
opaque powerUpDecValid : Bool
opaque powerUpDecErr : Bool
opaque powerUpDecLen : Len
opaque powerUpDecNeed : Len
opaque powerUpDecValue : Value

/-! ## Pins at an edge beyond the schedule (DESIGN CHOICE, log 4): the k-th such edge samples the k-th free values -/

opaque freeRst : Nat → Bool
opaque freeEncReqValid : Nat → Bool
opaque freeEncReqValue : Nat → Value
opaque freeEncRspReady : Nat → Bool
opaque freeDecReqValid : Nat → Bool
opaque freeDecReqBytes : Nat → Bus
opaque freeDecReqAvail : Nat → Len
opaque freeDecRspReady : Nat → Bool

end Sys2Proof.Config
end

