-- ==== Sys2Proof/Syntax.lean ====
section
/-! DEFINITION. The operations of the block and the classes of encoded form: one constructor per row of
spec/opcode_table.json (30_encoding.md R61, R71). -/

namespace Sys2Proof

/-- `enc` and `dec` are the two operations (R71), with the fields of their request channels. `viN` is a whole encoded
form of class N, standing for the DEC request that presents it (log 1); its operand is the value it holds. -/
inductive Instr where
  /-- ENC (40_encoder.md R91): `enc_req_value`. -/
  | enc (value : Value)
  /-- DEC (41_decoder.md R115): `dec_req_bytes`, `dec_req_avail`. -/
  | dec (bytes : Bus) (avail : Len)
  /-- VI1 (30_encoding.md R62): 7 payload bits in 1 byte. -/
  | vi1 (value : Value)
  /-- VI2 (30_encoding.md R63): 14 payload bits in 2 bytes. -/
  | vi2 (value : Value)
  /-- VI3 (30_encoding.md R64): 21 payload bits in 3 bytes. -/
  | vi3 (value : Value)
  /-- VI4 (30_encoding.md R65): 28 payload bits in 4 bytes. -/
  | vi4 (value : Value)
  /-- VI5 (30_encoding.md R66): 35 payload bits in 5 bytes. -/
  | vi5 (value : Value)
  /-- VI6 (30_encoding.md R67): 42 payload bits in 6 bytes. -/
  | vi6 (value : Value)
  /-- VI7 (30_encoding.md R68): 49 payload bits in 7 bytes. -/
  | vi7 (value : Value)
  /-- VI8 (30_encoding.md R69): 56 payload bits in 8 bytes. -/
  | vi8 (value : Value)
  /-- VI9 (30_encoding.md R70): 64 payload bits in 9 bytes. -/
  | vi9 (value : Value)
  deriving DecidableEq, Repr

end Sys2Proof
end

