-- ==== Sys2Proof/WellFormed.lean ====
section
/-! DEFINITION. Which instructions have an encoding. Every request field is legal (30_encoding.md R76); a form of class
n in 1..8 holds `v` only when `v < 2^(7n)` (R81), and class 9 holds every value (R70). -/

namespace Sys2Proof

/-- Class n holds the value v (30_encoding.md R81, R70). -/
def fitsClass (n : Nat) (v : Value) : Bool := decide (v.toNat < 2 ^ Config.classBits n)

/-- The instruction has an encoding. -/
def Instr.wellFormed : Instr → Bool
  | .enc _ => true
  | .dec _ _ => true
  | .vi1 v => fitsClass 1 v
  | .vi2 v => fitsClass 2 v
  | .vi3 v => fitsClass 3 v
  | .vi4 v => fitsClass 4 v
  | .vi5 v => fitsClass 5 v
  | .vi6 v => fitsClass 6 v
  | .vi7 v => fitsClass 7 v
  | .vi8 v => fitsClass 8 v
  | .vi9 v => fitsClass 9 v

end Sys2Proof
end

