-- ==== Sys2Proof/Decode.lean ====
section
/-! DEFINITION. The named functions of 00_scope.md R8, the two kinds of encoding of 30_encoding.md (the request-select
vector with its request fields, R71; the bytes of a form, R60 to R70), the decoder from them and the encoder to them. -/

namespace Sys2Proof

/-! ## The named functions of 00_scope.md R8 -/

/-- `bitlen(v)`: 0 for v = 0, else 1 + the index of the highest set bit. -/
def bitlen (v : Value) : Nat := if v = 0 then 0 else 1 + v.toNat.log2

/-- The count of trailing zero bits of `x`, looking at its low `k` bits. -/
def trailingZeros : (k x : Nat) → Nat
  | 0, _ => 0
  | k + 1, x => if x % 2 = 1 then 0 else 1 + trailingZeros k (x / 2)

/-- `tz8(h)`, in 0..8; `tz8(0x00) = 8`. -/
def tz8 (h : Byte) : Nat := trailingZeros 8 h.toNat

/-- `LE(b_0, …, b_{k-1})`, the first byte least significant. -/
def le : List Byte → Nat
  | [] => 0
  | b :: bs => b.toNat + 256 * le bs

/-- `lane(bus, i) = bus[8i+7 : 8i]`. -/
def lane (bus : Bus) (i : Nat) : Byte := bus.extractLsb' (8 * i) 8

/-- Lanes `i .. i+n-1` of a bus, in stream order. -/
def lanes (bus : Bus) : (i n : Nat) → List Byte
  | _, 0 => []
  | i, n + 1 => lane bus i :: lanes bus (i + 1) n

/-- The bus that carries these bytes from lane 0 upward, unlisted lanes 0 (20_memory.md R42, 30_encoding.md R79). -/
def busOfBytes (bs : List Byte) : Bus := BitVec.ofNat 72 (le bs)

/-- `hdr_len(h) = tz8(h) + 1` (41_decoder.md R111, 30_encoding.md R61). -/
def hdrLen (h : Byte) : Nat := tz8 h + 1

/-! ## The two kinds of encoding -/

/-- What the decoder of the model reads. -/
inductive Encoded where
  /-- A request-select vector (bit 0: the encoder's request channel transfers, bit 1: the decoder's) with the fields of
  both request channels (30_encoding.md R71, R72, R74). -/
  | request (select : BitVec 2) (value : Value) (bytes : Bus) (avail : Len)
  /-- The bytes of an encoded form, in stream order (30_encoding.md R60). -/
  | form (bytes : List Byte)
  deriving DecidableEq, Repr

/-- Why an encoding names no single instruction. -/
inductive DecodeError where
  /-- The request-select vector is 00: no request transfers. -/
  | noRequest
  /-- The request-select vector is 11: two requests transfer, one for each unit (R71). -/
  | twoRequests
  /-- The bytes end before the header's declared length `need`; 0 where there is no header (41_decoder.md R112). -/
  | truncated (need : Nat)
  /-- More bytes than the form has: a form of class n is exactly n bytes (30_encoding.md R60). -/
  | trailingBytes
  deriving DecidableEq, Repr

/-! ## Decoding a request (30_encoding.md R71) -/

/-- The instructions a request-select vector selects: ENC by bit 0, DEC by bit 1, both where both are set, the
encoder's first (the order shows nowhere, log 8). -/
def selectedInstrs (select : BitVec 2) (value : Value) (bytes : Bus) (avail : Len) : List Instr :=
  (if select.getLsbD 0 then [.enc value] else []) ++ (if select.getLsbD 1 then [.dec bytes avail] else [])

/-! ## Decoding a form (30_encoding.md R61 to R70) -/

/-- A row of the table of 30_encoding.md R61, which is a header-byte row of opcode_table.json. -/
structure ClassRow where
  cls : Nat
  mask : Byte
  pattern : Byte
  deriving DecidableEq, Repr

/-- The table of 30_encoding.md R61. -/
def classRows : List ClassRow :=
  [⟨1, 0x01, 0x01⟩, ⟨2, 0x03, 0x02⟩, ⟨3, 0x07, 0x04⟩, ⟨4, 0x0F, 0x08⟩, ⟨5, 0x1F, 0x10⟩, ⟨6, 0x3F, 0x20⟩,
   ⟨7, 0x7F, 0x40⟩, ⟨8, 0xFF, 0x80⟩, ⟨9, 0xFF, 0x00⟩]

/-- The header byte matches the row. -/
def ClassRow.matchesHeader (r : ClassRow) (h : Byte) : Bool := h &&& r.mask == r.pattern

/-- The class of a header byte by the table; every header has one (R76). -/
def headerClass (h : Byte) : Nat := ((classRows.find? (·.matchesHeader h)).map (·.cls)).getD 0

/-- The form at the head of a byte string, and the bytes after it. The payload is assembled by the "Decoding" line of
its class's rule, R62 to R70. Fewer bytes than the header declares is `truncated`. -/
def decodeForm : List Byte → Except DecodeError (Instr × List Byte)
  | [] => .error (.truncated 0)
  | b0 :: t =>
    match headerClass b0, t with
    | 1, t => .ok (.vi1 ((b0.extractLsb' 1 7).setWidth 64), t)
    | 2, b1 :: t => .ok (.vi2 ((b1 ++ b0.extractLsb' 2 6).setWidth 64), t)
    | 3, b1 :: b2 :: t => .ok (.vi3 ((b2 ++ b1 ++ b0.extractLsb' 3 5).setWidth 64), t)
    | 4, b1 :: b2 :: b3 :: t => .ok (.vi4 ((b3 ++ b2 ++ b1 ++ b0.extractLsb' 4 4).setWidth 64), t)
    | 5, b1 :: b2 :: b3 :: b4 :: t => .ok (.vi5 ((b4 ++ b3 ++ b2 ++ b1 ++ b0.extractLsb' 5 3).setWidth 64), t)
    | 6, b1 :: b2 :: b3 :: b4 :: b5 :: t =>
      .ok (.vi6 ((b5 ++ b4 ++ b3 ++ b2 ++ b1 ++ b0.extractLsb' 6 2).setWidth 64), t)
    | 7, b1 :: b2 :: b3 :: b4 :: b5 :: b6 :: t =>
      .ok (.vi7 ((b6 ++ b5 ++ b4 ++ b3 ++ b2 ++ b1 ++ b0.extractLsb' 7 1).setWidth 64), t)
    | 8, b1 :: b2 :: b3 :: b4 :: b5 :: b6 :: b7 :: t =>
      .ok (.vi8 ((b7 ++ b6 ++ b5 ++ b4 ++ b3 ++ b2 ++ b1).setWidth 64), t)
    | 9, b1 :: b2 :: b3 :: b4 :: b5 :: b6 :: b7 :: b8 :: t =>
      .ok (.vi9 (b8 ++ b7 ++ b6 ++ b5 ++ b4 ++ b3 ++ b2 ++ b1), t)
    | n, _ => .error (.truncated n)

/-! ## Decoding either kind, and encoding -/

/-- The one instruction an encoding names, or why it names none. -/
def decode : Encoded → Except DecodeError Instr
  | .request select value bytes avail =>
    match selectedInstrs select value bytes avail with
    | [] => .error .noRequest
    | [i] => .ok i
    | _ :: _ :: _ => .error .twoRequests
  | .form bs =>
    match decodeForm bs with
    | .ok (i, []) => .ok i
    | .ok (_, _ :: _) => .error .trailingBytes
    | .error e => .error e

/-- The encoding of an instruction, from the request formats (R71, R72, R74) and the layout line of each class's rule
(R62 to R70). Request fields of the channel not selected are 0. -/
def encode : Instr → Encoded
  | .enc v => .request 0b01 v 0 0
  | .dec bytes avail => .request 0b10 0 bytes avail
  | .vi1 v => .form [v.extractLsb' 0 7 ++ 0b1#1]
  | .vi2 v => .form [v.extractLsb' 0 6 ++ 0b10#2, v.extractLsb' 6 8]
  | .vi3 v => .form [v.extractLsb' 0 5 ++ 0b100#3, v.extractLsb' 5 8, v.extractLsb' 13 8]
  | .vi4 v => .form [v.extractLsb' 0 4 ++ 0b1000#4, v.extractLsb' 4 8, v.extractLsb' 12 8, v.extractLsb' 20 8]
  | .vi5 v => .form [v.extractLsb' 0 3 ++ 0b10000#5, v.extractLsb' 3 8, v.extractLsb' 11 8, v.extractLsb' 19 8,
      v.extractLsb' 27 8]
  | .vi6 v => .form [v.extractLsb' 0 2 ++ 0b100000#6, v.extractLsb' 2 8, v.extractLsb' 10 8, v.extractLsb' 18 8,
      v.extractLsb' 26 8, v.extractLsb' 34 8]
  | .vi7 v => .form [v.extractLsb' 0 1 ++ 0b1000000#7, v.extractLsb' 1 8, v.extractLsb' 9 8, v.extractLsb' 17 8,
      v.extractLsb' 25 8, v.extractLsb' 33 8, v.extractLsb' 41 8]
  | .vi8 v => .form [0x80, v.extractLsb' 0 8, v.extractLsb' 8 8, v.extractLsb' 16 8, v.extractLsb' 24 8,
      v.extractLsb' 32 8, v.extractLsb' 40 8, v.extractLsb' 48 8]
  | .vi9 v => .form [0x00, v.extractLsb' 0 8, v.extractLsb' 8 8, v.extractLsb' 16 8, v.extractLsb' 24 8,
      v.extractLsb' 32 8, v.extractLsb' 40 8, v.extractLsb' 48 8, v.extractLsb' 56 8]

/-- The instruction of class n that holds v: `viN v`. -/
def classInstr (n : Nat) (v : Value) : Instr :=
  match n with
  | 1 => .vi1 v
  | 2 => .vi2 v
  | 3 => .vi3 v
  | 4 => .vi4 v
  | 5 => .vi5 v
  | 6 => .vi6 v
  | 7 => .vi7 v
  | 8 => .vi8 v
  | _ => .vi9 v

/-! ## Words numbered as opcode_table.json numbers them (log 2) -/

/-- The encoding a table word stands for. The table's ENC and DEC rows are request-select vectors of one byte, 0x01 and
0x02, their operands 0; every other word is a form whose header is the word's low byte and whose bytes follow upward,
cut to the header's declared length. -/
def encodedOfTableWord (nbits w : Nat) : Encoded :=
  if nbits = 8 ∧ (w = 1 ∨ w = 2) then .request (BitVec.ofNat 2 w) 0 0 0
  else
    let bus := BitVec.ofNat 72 (w % 2 ^ nbits)
    .form (lanes bus 0 (headerClass (lane bus 0)))

/-- The instruction the decoder reads from a table word. -/
def decodeTableWord (nbits w : Nat) : Option Instr := (decode (encodedOfTableWord nbits w)).toOption

end Sys2Proof
end

