-- ==== Sys2Proof/Machine/State.lean ====
section
/-! DEFINITION. The state of the block: the response register of each unit (10_state.md R23, R24) and nothing else
(R27). Beside it stand the model's own two fields: the caller's schedule of pins, and the counter of edges beyond it. -/

namespace Sys2Proof.Machine

/-- `enc_q`, the encoder's response register (10_state.md R23). -/
structure EncQ where
  valid : Bool
  len : Len
  bytes : Bus
  deriving DecidableEq, Repr

/-- `dec_q`, the decoder's response register (10_state.md R24). `err` is the block's one flag (R26). -/
structure DecQ where
  valid : Bool
  err : Bool
  len : Len
  need : Len
  value : Value
  deriving DecidableEq, Repr

/-- How the caller drives a `*_rsp_ready` pin at an edge. -/
inductive ReadyDrive where
  /-- A level that does not depend on the unit's `req_ready`. -/
  | level (b : Bool)
  /-- The pin is made from the same unit's `req_ready`: equal to it, or to its complement where `inverted`. This is the
  combinational loop 70_reset_and_hazards.md R171 forbids (log 6). -/
  | fromReqReady (inverted : Bool)
  deriving DecidableEq, Repr

/-- The input pins, as sampled at one rising edge (30_encoding.md R72 to R75; 70_reset_and_hazards.md R160, R163). -/
structure Inputs where
  rst : Bool
  encReqValid : Bool
  encReqValue : Value
  encRspReady : ReadyDrive
  decReqValid : Bool
  decReqBytes : Bus
  decReqAvail : Len
  decRspReady : ReadyDrive
  deriving DecidableEq, Repr

/-- The machine. -/
structure State where
  encQ : EncQ
  decQ : DecQ
  /-- The model's own field: the pins at the coming edges, the next edge's first (log 3). -/
  inputs : List Inputs
  /-- The model's own field: how many edges beyond the schedule have been sampled (log 4). -/
  draws : Nat
  deriving DecidableEq, Repr

/-- One of the two units. -/
inductive UnitName where
  | encoder
  | decoder
  deriving DecidableEq, Repr

/-- The block has no trap and no event that stops it (60_exceptions.md R147): its one error, Truncated, is a response
(R141). So there is no fault to name, and the type has no constructor (log 16). -/
inductive Fault
  deriving DecidableEq, Repr

/-- Why a step has no next state. -/
inductive Refusal where
  /-- Raised by `exec` for an instruction that has no meaning yet. Safe: the model stops. No arm raises it now. -/
  | notModelled (mnemonic : String)
  /-- Raised by `clockEdge` where the caller makes a unit's `rsp_ready` from its `req_ready`: "the loop has no defined
  value" (70_reset_and_hazards.md R171), treatment `refuse` (93_implementation_defined.md section 2). Safe: the model
  stops (log 6). -/
  | combinationalLoop (unit : UnitName)
  deriving DecidableEq, Repr

/-- `enc_q` after an edge with `rst` at 1 (10_state.md R28). -/
def EncQ.reset : EncQ := ⟨false, 0, 0⟩

/-- `dec_q` after an edge with `rst` at 1 (10_state.md R28). -/
def DecQ.reset : DecQ := ⟨false, false, 0, 0, 0⟩

/-- The machine right after a reset edge (10_state.md R28), with nothing scheduled. -/
def State.reset : State := ⟨EncQ.reset, DecQ.reset, [], 0⟩

/-- The machine before its first reset edge: every register field unspecified (10_state.md R29, log 7). -/
def State.powerUp : State :=
  ⟨⟨Config.powerUpEncValid, Config.powerUpEncLen, Config.powerUpEncBytes⟩,
   ⟨Config.powerUpDecValid, Config.powerUpDecErr, Config.powerUpDecLen, Config.powerUpDecNeed, Config.powerUpDecValue⟩,
   [], 0⟩

end Sys2Proof.Machine
end

