-- ==== Sys2Proof/Machine/Ops.lean ====
section
/-! DEFINITION. The operations the meanings share: lane reads and writes (00_scope.md R9), loading a response register,
raising Truncated (60_exceptions.md R141), the reset load (10_state.md R28), the handshake (70_reset_and_hazards.md R163,
R165), the output pins (R164), and sampling the input pins. -/

namespace Sys2Proof.Machine

/-! ## Byte lanes (00_scope.md R9; 20_memory.md R42, R44, R45) -/

/-- A bus with lane i replaced. -/
def setLane (bus : Bus) (i : Nat) (b : Byte) : Bus :=
  (bus &&& ~~~((0xFF : Bus) <<< (8 * i))) ||| (b.setWidth 72 <<< (8 * i))

/-- `MemRead(i, n)`: lanes i..i+n-1 of the window, little-endian. -/
def memRead (bus : Bus) (i n : Nat) : Nat := le (lanes bus i n)

/-- `MemWrite(i, n, v)`: lanes i..i+n-1 take the n bytes of v, least significant first. -/
def memWrite (bus : Bus) : (i n v : Nat) → Bus
  | _, 0, _ => bus
  | i, n + 1, v => memWrite (setLane bus i (BitVec.ofNat 8 v)) (i + 1) n (v / 256)

/-! ## Responses -/

/-- The response that carries a decoded value: `len` and `need` are the declared length (41_decoder.md R115, R120). -/
def decodedResponse (n : Nat) (value : Value) : DecQ := ⟨true, false, BitVec.ofNat 4 n, BitVec.ofNat 4 n, value⟩

/-- `raise Truncated(need)`: the response that carries the error, nothing consumed and no value (00_scope.md R9,
60_exceptions.md R141). The block's one exception; it takes no trap and has no return (R147). -/
def raiseTruncated (need : Nat) : DecQ := ⟨true, true, 0, BitVec.ofNat 4 need, 0⟩

/-- The encoder's register at a request transfer: the form through `MemWrite(0, 9, bytes)` (40_encoder.md R91). -/
def State.loadEnc (s : State) (len : Nat) (bytes : Bus) : State :=
  { s with encQ := ⟨true, BitVec.ofNat 4 len, memWrite s.encQ.bytes 0 Config.maxLen bytes.toNat⟩ }

/-- The decoder's register at a request transfer (41_decoder.md R115). -/
def State.loadDec (s : State) (q : DecQ) : State := { s with decQ := q }

/-- Both registers at an edge with `rst` at 1 (10_state.md R28, 70_reset_and_hazards.md R160). -/
def State.loadReset (s : State) : State := { s with encQ := EncQ.reset, decQ := DecQ.reset }

/-! ## Handshake (70_reset_and_hazards.md R163, R165) -/

/-- `req_ready = (rst == 0) and (q.valid == 0 or rsp_ready == 1)`. -/
def reqReady (rst valid rspReady : Bool) : Bool := !rst && (!valid || rspReady)

/-- A response transfer: `q.valid == 1 and rsp_ready == 1`. -/
def rspTransfers (valid rspReady : Bool) : Bool := valid && rspReady

/-- The level a pin is driven to, where it is one: a pin made from `req_ready` has none (R171). -/
def ReadyDrive.level? : ReadyDrive → Option Bool
  | .level b => some b
  | .fromReqReady _ => none

/-- The encoder's register after its response transfer, if there is one: `valid` falls and the data fields keep their
values (R163). -/
def State.drainEnc (rspReady : Bool) (s : State) : State :=
  if rspTransfers s.encQ.valid rspReady then { s with encQ := { s.encQ with valid := false } } else s

/-- The decoder's register after its response transfer, if there is one (R163). -/
def State.drainDec (rspReady : Bool) (s : State) : State :=
  if rspTransfers s.decQ.valid rspReady then { s with decQ := { s.decQ with valid := false } } else s

/-! ## Output pins (10_state.md R23, R24; 70_reset_and_hazards.md R164) -/

/-- The block's output pins. -/
structure Outputs where
  encReqReady : Bool
  encRspValid : Bool
  encRspLen : Len
  encRspBytes : Bus
  decReqReady : Bool
  decRspValid : Bool
  decRspErr : Bool
  decRspLen : Len
  decRspNeed : Len
  decRspValue : Value
  deriving DecidableEq, Repr

/-- The output pins while `rst` and the two `rsp_ready` pins have these levels: the response pins are the register
fields at all times, and only `req_ready` reads a pin (R164). -/
def State.outputs (s : State) (rst encRspReady decRspReady : Bool) : Outputs :=
  { encReqReady := reqReady rst s.encQ.valid encRspReady
    encRspValid := s.encQ.valid
    encRspLen := s.encQ.len
    encRspBytes := s.encQ.bytes
    decReqReady := reqReady rst s.decQ.valid decRspReady
    decRspValid := s.decQ.valid
    decRspErr := s.decQ.err
    decRspLen := s.decQ.len
    decRspNeed := s.decQ.need
    decRspValue := s.decQ.value }

/-! ## Sampling the input pins -/

/-- The pins at the k-th edge beyond the schedule: free values (log 4). -/
def freeInputs (k : Nat) : Inputs :=
  { rst := Config.freeRst k
    encReqValid := Config.freeEncReqValid k
    encReqValue := Config.freeEncReqValue k
    encRspReady := .level (Config.freeEncRspReady k)
    decReqValid := Config.freeDecReqValid k
    decReqBytes := Config.freeDecReqBytes k
    decReqAvail := Config.freeDecReqAvail k
    decRspReady := .level (Config.freeDecRspReady k) }

/-- The pins the next edge samples: the schedule's first record, or the next free pins. -/
def State.sampled (s : State) : Inputs :=
  match s.inputs with
  | p :: _ => p
  | [] => freeInputs s.draws

/-- The state with the sampled pins behind it. -/
def State.advance (s : State) : State :=
  match s.inputs with
  | _ :: ps => { s with inputs := ps }
  | [] => { s with draws := s.draws + 1 }

end Sys2Proof.Machine
end

