-- ==== Sys2Proof/Machine/Classes.lean ====
section
/-! DEFINITION. The nine classes of encoded form (30_encoding.md R62 to R70), as the decoder takes a whole form of each:
the response carries the form's payload, and the class as the length (log 1). -/

namespace Sys2Proof.Machine

/-- The value a form of `k` payload bits holds: those bits of v, zero-extended (30_encoding.md R81; log 11). -/
def payload (k : Nat) (v : Value) : Value := (v.extractLsb' 0 k).setWidth 64

/-- VI1: a 1-byte form, payload v[6:0] (30_encoding.md R62). -/
def execVi1 (v : Value) (s : State) : Host.Outcome State Fault Refusal :=
  .next (s.loadDec (decodedResponse 1 (payload 7 v)))

/-- VI2: a 2-byte form, payload v[13:0] (30_encoding.md R63). -/
def execVi2 (v : Value) (s : State) : Host.Outcome State Fault Refusal :=
  .next (s.loadDec (decodedResponse 2 (payload 14 v)))

/-- VI3: a 3-byte form, payload v[20:0] (30_encoding.md R64). -/
def execVi3 (v : Value) (s : State) : Host.Outcome State Fault Refusal :=
  .next (s.loadDec (decodedResponse 3 (payload 21 v)))

/-- VI4: a 4-byte form, payload v[27:0] (30_encoding.md R65). -/
def execVi4 (v : Value) (s : State) : Host.Outcome State Fault Refusal :=
  .next (s.loadDec (decodedResponse 4 (payload 28 v)))

/-- VI5: a 5-byte form, payload v[34:0] (30_encoding.md R66). -/
def execVi5 (v : Value) (s : State) : Host.Outcome State Fault Refusal :=
  .next (s.loadDec (decodedResponse 5 (payload 35 v)))

/-- VI6: a 6-byte form, payload v[41:0] (30_encoding.md R67). -/
def execVi6 (v : Value) (s : State) : Host.Outcome State Fault Refusal :=
  .next (s.loadDec (decodedResponse 6 (payload 42 v)))

/-- VI7: a 7-byte form, payload v[48:0] (30_encoding.md R68). -/
def execVi7 (v : Value) (s : State) : Host.Outcome State Fault Refusal :=
  .next (s.loadDec (decodedResponse 7 (payload 49 v)))

/-- VI8: an 8-byte form, payload v[55:0] (30_encoding.md R69). -/
def execVi8 (v : Value) (s : State) : Host.Outcome State Fault Refusal :=
  .next (s.loadDec (decodedResponse 8 (payload 56 v)))

/-- VI9: a 9-byte form, payload v[63:0] (30_encoding.md R70). -/
def execVi9 (v : Value) (s : State) : Host.Outcome State Fault Refusal :=
  .next (s.loadDec (decodedResponse 9 (payload 64 v)))

end Sys2Proof.Machine
end

