-- ==== Sys2Proof/Machine/Operands.lean ====
section
/-! DEFINITION. The operands of DEC, as its pseudocode reads them (41_decoder.md R110, R111). ENC's operand is the
request's value as it stands (40_encoder.md R91). -/

namespace Sys2Proof.Machine

/-- The effective count `a = min(dec_req_avail, 9)` (41_decoder.md R110). -/
def effectiveAvail (avail : Len) : Nat := min avail.toNat Config.maxLen

/-- The header `s_0`, which is `MemRead(0, 1)` (41_decoder.md R115). -/
def headerByte (bytes : Bus) : Byte := BitVec.ofNat 8 (memRead bytes 0 1)

/-- The declared length of the window's header, 1..9 (41_decoder.md R111). -/
def declaredLen (bytes : Bus) : Nat := hdrLen (headerByte bytes)

end Sys2Proof.Machine
end

