-- ==== Sys2Proof/Machine/Flags.lean ====
section
/-! DEFINITION. The block's one flag, `dec_q.err` (10_state.md R26): when a DEC request sets it, and the `need` that
goes with it. -/

namespace Sys2Proof.Machine

/-- A DEC request is truncated: no byte is available, or fewer than the header declares (41_decoder.md R112). -/
def truncated (bytes : Bus) (avail : Len) : Bool :=
  effectiveAvail avail == 0 || decide (effectiveAvail avail < declaredLen bytes)

/-- `need` of a truncated request: 0 where no byte is available, else the declared length (60_exceptions.md R141). -/
def truncatedNeed (bytes : Bus) (avail : Len) : Nat := if effectiveAvail avail = 0 then 0 else declaredLen bytes

end Sys2Proof.Machine
end

