-- ==== Sys2Proof/Machine/Decoder.lean ====
section
/-! DEFINITION. varint_decoder: the operation DEC (41_decoder.md R110 to R115). -/

namespace Sys2Proof.Machine

/-- The value of a form of declared length n in the window: the 8 bytes after the header for n = 9 (41_decoder.md R114),
else the whole form shifted right by n in 64-bit arithmetic (R113). -/
def decValue (bytes : Bus) (n : Nat) : Value :=
  if n = 9 then BitVec.ofNat 64 (memRead bytes 1 8) else BitVec.ofNat 64 (memRead bytes 0 n) >>> n

/-- The response DEC gives a request: a function of the request alone (41_decoder.md R115, 10_state.md R25). -/
def decResponse (bytes : Bus) (avail : Len) : DecQ :=
  if truncated bytes avail then raiseTruncated (truncatedNeed bytes avail)
  else decodedResponse (declaredLen bytes) (decValue bytes (declaredLen bytes))

/-- DEC: the transfer edge loads the response (41_decoder.md R115). -/
def execDec (bytes : Bus) (avail : Len) (s : State) : Host.Outcome State Fault Refusal :=
  .next (s.loadDec (decResponse bytes avail))

end Sys2Proof.Machine
end

