-- ==== Sys2Proof/Machine/Encoder.lean ====
section
/-! DEFINITION. varint_encoder: the operation ENC (40_encoder.md R90, R91). -/

namespace Sys2Proof.Machine

/-- `enc_len(v)` (40_encoder.md R90). -/
def encLen (v : Value) : Nat :=
  let b := max 1 (bitlen v)
  if b > 56 then 9 else (b + 6) / 7

/-- The form of `v` on the 72-bit bus, unused lanes 0 (40_encoder.md R91). -/
def encBytes (v : Value) : Bus :=
  let n := encLen v
  if n = 9 then v ++ (0x00 : Byte)
  else
    let W : Value := (v <<< n) ||| ((1 : Value) <<< (n - 1))
    (W.setWidth (8 * n)).setWidth 72

/-- ENC: the transfer edge loads the form and its length (40_encoder.md R91). It writes no flag and raises nothing. -/
def execEnc (v : Value) (s : State) : Host.Outcome State Fault Refusal := .next (s.loadEnc (encLen v) (encBytes v))

end Sys2Proof.Machine
end

