-- ==== Sys2Proof/Machine/Dispatch.lean ====
section
/-! DEFINITION. One arm per constructor of Instr: the effect of the transfer that the instruction is (log 12). -/

namespace Sys2Proof.Machine

def exec (i : Instr) (s : State) : Host.Outcome State Fault Refusal :=
  match i with
  | .enc v => Sys2Proof.Machine.execEnc v s
  | .dec bytes avail => Sys2Proof.Machine.execDec bytes avail s
  | .vi1 v => Sys2Proof.Machine.execVi1 v s
  | .vi2 v => Sys2Proof.Machine.execVi2 v s
  | .vi3 v => Sys2Proof.Machine.execVi3 v s
  | .vi4 v => Sys2Proof.Machine.execVi4 v s
  | .vi5 v => Sys2Proof.Machine.execVi5 v s
  | .vi6 v => Sys2Proof.Machine.execVi6 v s
  | .vi7 v => Sys2Proof.Machine.execVi7 v s
  | .vi8 v => Sys2Proof.Machine.execVi8 v s
  | .vi9 v => Sys2Proof.Machine.execVi9 v s

end Sys2Proof.Machine
end

