-- ==== Sys2Proof/Machine/Edge.lean ====
section
/-! DEFINITION. One rising edge of `clk` for both units (70_reset_and_hazards.md R163), and the pins that present one
instruction (30_encoding.md R71, R79). -/

namespace Sys2Proof.Machine

/-- The request-select vector (dec transfers, enc transfers) of 30_encoding.md R71: `req_valid` and `req_ready` of each
channel (70_reset_and_hazards.md R163, R165). -/
def selectVector (p : Inputs) (encRspReady decRspReady : Bool) (s : State) : BitVec 2 :=
  BitVec.ofBool (p.decReqValid && reqReady p.rst s.decQ.valid decRspReady) ++
    BitVec.ofBool (p.encReqValid && reqReady p.rst s.encQ.valid encRspReady)

/-- The selected instructions, one after another. -/
def execAll : List Instr → State → Host.Outcome State Fault Refusal
  | [], s => .next s
  | i :: is, s =>
    match exec i s with
    | .next t => execAll is t
    | .fault f => .fault f
    | .refused r => .refused r

/-- An edge with `rst` at 0 and the two `rsp_ready` pins at these levels: each unit's response leaves if it transfers,
and each request that transfers is run on its unit (R163). Which requests transfer is read from the state before. The
order (response transfers, ENC, DEC) is the model's (DEDUCED, log 8) and shows nowhere. -/
def transferEdge (p : Inputs) (encRspReady decRspReady : Bool) (s : State) : Host.Outcome State Fault Refusal :=
  execAll (selectedInstrs (selectVector p encRspReady decRspReady s) p.encReqValue p.decReqBytes p.decReqAvail)
    ((s.drainEnc encRspReady).drainDec decRspReady)

/-- One rising edge with the pins `p` sampled. A reset edge loads the reset values whatever the other pins are (R160);
at any other edge a caller that closes a loop from `req_ready` to `rsp_ready` is refused (R171, log 6). -/
def edge (p : Inputs) (s : State) : Host.Outcome State Fault Refusal :=
  if p.rst then .next s.loadReset
  else
    match p.encRspReady, p.decRspReady with
    | .level e, .level d => transferEdge p e d s
    | .fromReqReady _, _ => .refused (.combinationalLoop .encoder)
    | .level _, .fromReqReady _ => .refused (.combinationalLoop .decoder)

/-- One rising edge with the pins the state samples next. -/
def clockEdge (s : State) : Host.Outcome State Fault Refusal := edge s.sampled s.advance

/-! ## Presenting one instruction -/

/-- Pins at rest: no request, no response taken, no reset. -/
def restInputs : Inputs := ⟨false, false, 0, .level false, false, 0, 0, .level false⟩

/-- The pins that present what an encoding names, and nothing else: a request on each selected channel, or the form as a
decoder request with exactly its own bytes available (30_encoding.md R79). A channel's `rsp_ready` is 1 where it is
given a request, so the request transfers (R165), and 0 where it is not, so that unit keeps its register. -/
def inputsOfEncoded : Encoded → Inputs
  | .request select value bytes avail =>
    ⟨false, select.getLsbD 0, value, .level (select.getLsbD 0), select.getLsbD 1, bytes, avail,
      .level (select.getLsbD 1)⟩
  | .form bs => { restInputs with
      decReqValid := true, decReqBytes := busOfBytes bs, decReqAvail := BitVec.ofNat 4 (min bs.length 15),
      decRspReady := .level true }

end Sys2Proof.Machine
end

