-- ==== Sys2Proof/Machine/Step.lean ====
section
/-! DEFINITION. The step: one rising edge of `clk` (70_reset_and_hazards.md R163), and placing one instruction where the
next step takes it. -/

namespace Sys2Proof.Machine

/-- One step is one rising edge of `clk` for both units. -/
def step : State → Host.Outcome State Fault Refusal := clockEdge

/-- The state whose next edge samples the pins that present the table word's instruction, and which is otherwise `s`
(log 2, log 3). -/
def State.withFetchWord (s : State) (nbits w : Nat) : State :=
  { s with inputs := inputsOfEncoded (encodedOfTableWord nbits w) :: s.inputs }

end Sys2Proof.Machine
end

