-- ==== Sys2Proof/Machine/Caller.lean ====
section
/-! DEFINITION. The caller's side, as the spec writes it: the transaction notation (30_encoding.md R79), its
pseudo-operations (R80) and the read cursor (20_memory.md R53, 70_reset_and_hazards.md R169). No part of the block
(log 15). -/

namespace Sys2Proof.Machine

/-! ## Transaction lines (R79) -/

/-- A request line of the notation. -/
inductive Line where
  /-- `ENC <value>`. -/
  | enc (value : Value)
  /-- `DEC <b0> … [avail=<k>]`. -/
  | dec (bytes : List Byte) (avail : Option Len)
  deriving DecidableEq, Repr

/-- A DEC line lists 1 to 9 bytes (R79). -/
def Line.wellFormed : Line → Bool
  | .enc _ => true
  | .dec bs _ => decide (Config.minLen ≤ bs.length ∧ bs.length ≤ Config.maxLen)

/-- `avail` of a DEC line: the number of bytes listed unless it is given. -/
def availOfLine (bs : List Byte) (avail : Option Len) : Len := avail.getD (BitVec.ofNat 4 bs.length)

/-- The operation a line requests; unlisted lanes are 0. -/
def Line.instr : Line → Instr
  | .enc v => .enc v
  | .dec bs avail => .dec (busOfBytes bs) (availOfLine bs avail)

/-- `IDLE`: no request, both `rsp_ready` at 1 (R80). -/
def idleInputs : Inputs := ⟨false, false, 0, .level true, false, 0, 0, .level true⟩

/-- `RESET`: one cycle with `rst` at 1 (R80). -/
def resetInputs : Inputs := { idleInputs with rst := true }

/-- The pins of one cycle that offers the line's request, both `rsp_ready` at 1 (log 15). -/
def Line.inputs : Line → Inputs
  | .enc v => { idleInputs with encReqValid := true, encReqValue := v }
  | .dec bs avail => { idleInputs with
      decReqValid := true, decReqBytes := busOfBytes bs, decReqAvail := availOfLine bs avail }

/-- `RT <value>`: encode, then decode the bytes given, with `avail` the length given (R80). -/
def roundTripLines (v : Value) : List Line := [.enc v, .dec (lanes (encBytes v) 0 (encLen v)) none]

/-- `IDLE <k>` (R80). -/
def idleSchedule (k : Nat) : List Inputs := List.replicate k idleInputs

/-! ## Responses as the notation writes them (R79) -/

/-- `-> len=n bytes=…`, `-> ok value=v len=n` or `-> Truncated need=k`. -/
inductive Report where
  | form (len : Nat) (bytes : List Byte)
  | ok (value : Value) (len : Nat)
  | truncated (need : Nat)
  deriving DecidableEq, Repr

/-- The encoder's held response in the notation. -/
def EncQ.report (q : EncQ) : Report := .form q.len.toNat (lanes q.bytes 0 q.len.toNat)

/-- The decoder's held response in the notation. -/
def DecQ.report (q : DecQ) : Report :=
  if q.err then .truncated q.need.toNat else .ok q.value q.len.toNat

/-! ## The read cursor (20_memory.md R53, 70_reset_and_hazards.md R169) -/

/-- The caller's cursor after a DEC response. -/
def cursorAfter (c : Nat) (q : DecQ) : Nat := c + q.len.toNat

/-- Bytes `c .. min(c+8, m-1)` of the stream: the window from the cursor (R80). -/
def streamWindow (stream : List Byte) (c : Nat) : List Byte := (stream.drop c).take Config.maxLen

/-- What the DECSTREAM loop leaves: the values decoded in order, the final cursor, and whether it stopped on Truncated. -/
structure StreamResult where
  values : List Value
  cursor : Nat
  stopped : Bool
  deriving DecidableEq, Repr

/-- DECSTREAM from the cursor c (R80): while c < m, decode the window at c with `avail = min(m - c, 9)`; on success move
the cursor by `len`, on Truncated stop. `fuel` bounds the windows; every success moves the cursor, so m of them are
enough. -/
def decStreamFrom (stream : List Byte) : (fuel c : Nat) → StreamResult
  | 0, c => ⟨[], c, false⟩
  | fuel + 1, c =>
    if c < stream.length then
      let w := streamWindow stream c
      let q := decResponse (busOfBytes w) (BitVec.ofNat 4 w.length)
      if q.err then ⟨[], c, true⟩
      else
        let r := decStreamFrom stream fuel (cursorAfter c q)
        { r with values := q.value :: r.values }
    else ⟨[], c, false⟩

/-- `DECSTREAM s_0 … s_{m-1}` (R80). -/
def decStream (stream : List Byte) : StreamResult := decStreamFrom stream stream.length 0

/-- The bytes ENC gives for v, which the caller appends to a stream. -/
def encForm (v : Value) : List Byte := lanes (encBytes v) 0 (encLen v)

end Sys2Proof.Machine
end

