-- ==== Sys2Proof/Safety.lean ====
section
/-! DEFINITION. What a safe run is: the invariant of the response registers (30_encoding.md R76, 40_encoder.md R91,
41_decoder.md R120, 60_exceptions.md R141), the requests a unit accepts and the responses it delivers along a run
(70_reset_and_hazards.md R163, R168), and the callers R171 allows. -/

namespace Sys2Proof.Machine

/-! ## The invariant -/

/-- A held form is the form ENC gives some value; `len` is at most 9 whether or not a response is held (R76). -/
def EncQ.Inv (q : EncQ) : Prop :=
  q.len.toNat ≤ 9 ∧ (q.valid = true → ∃ v : Value, q.len = BitVec.ofNat 4 (encLen v) ∧ q.bytes = encBytes v)

/-- A held response is a decoded value of its class (R113, R114, R120) or a Truncated (R141); `len` and `need` are at
most 9 whether or not a response is held (R76). -/
def DecQ.Inv (q : DecQ) : Prop :=
  q.len.toNat ≤ 9 ∧ q.need.toNat ≤ 9 ∧
    (q.valid = true → q.err = false →
      1 ≤ q.len.toNat ∧ q.need = q.len ∧ q.value.toNat < 2 ^ Config.classBits q.len.toNat) ∧
    (q.valid = true → q.err = true → q.len = 0 ∧ q.value = 0 ∧ q.need ≠ 1)

/-- Both registers hold what the spec says they can hold. -/
def State.Inv (s : State) : Prop := s.encQ.Inv ∧ s.decQ.Inv

/-! ## Callers -/

/-- The caller closes no loop from `req_ready` to `rsp_ready` at the next edge (R171). -/
def State.noLoop (s : State) : Bool := s.sampled.encRspReady.level?.isSome && s.sampled.decRspReady.level?.isSome

/-- The level of the encoder's `rsp_ready` at the next edge. -/
def State.encRspReadyNow (s : State) : Bool := s.sampled.encRspReady.level?.getD false

/-- The level of the decoder's `rsp_ready` at the next edge. -/
def State.decRspReadyNow (s : State) : Bool := s.sampled.decRspReady.level?.getD false

/-! ## Transfers at the next edge (R163) -/

/-- The encoder's request that transfers at the next edge. -/
def State.encRequest (s : State) : List Value :=
  if s.sampled.encReqValid && reqReady s.sampled.rst s.encQ.valid s.encRspReadyNow then [s.sampled.encReqValue] else []

/-- The decoder's request that transfers at the next edge. -/
def State.decRequest (s : State) : List (Bus × Len) :=
  if s.sampled.decReqValid && reqReady s.sampled.rst s.decQ.valid s.decRspReadyNow then
    [(s.sampled.decReqBytes, s.sampled.decReqAvail)] else []

/-- The encoder's response held in the register. -/
def State.encHeld (s : State) : List (Len × Bus) := if s.encQ.valid then [(s.encQ.len, s.encQ.bytes)] else []

/-- The decoder's response held in the register. -/
def State.decHeld (s : State) : List DecQ := if s.decQ.valid then [s.decQ] else []

/-- The encoder's response that transfers at the next edge; none transfers at a reset edge (R160). -/
def State.encDelivery (s : State) : List (Len × Bus) :=
  if !s.sampled.rst && rspTransfers s.encQ.valid s.encRspReadyNow then [(s.encQ.len, s.encQ.bytes)] else []

/-- The decoder's response that transfers at the next edge. -/
def State.decDelivery (s : State) : List DecQ :=
  if !s.sampled.rst && rspTransfers s.decQ.valid s.decRspReadyNow then [s.decQ] else []

/-! ## Runs -/

/-- `events` of each of the next k edges, in order. -/
def eventsOver {α : Type} (events : State → List α) : Nat → State → List α
  | 0, _ => []
  | k + 1, s =>
    events s ++
      match step s with
      | .next t => eventsOver events k t
      | .fault _ => []
      | .refused _ => []

/-- None of the next k edges is a reset edge. -/
def noResetOver : Nat → State → Bool
  | 0, _ => true
  | k + 1, s =>
    !s.sampled.rst &&
      match step s with
      | .next t => noResetOver k t
      | .fault _ => true
      | .refused _ => true

end Sys2Proof.Machine
end

