-- ==== Sys2Proof/Certificates/Slice0/Obligations.lean ====
section
/-! DEFINITION. The statements for the provers, from the numbered rules of spec/. -/

open Sys2Proof Sys2Proof.Machine

/-! ## Encodings -/

/-- 41_decoder.md R111: the declared length of a header is `tz8(h) + 1`, in 1..9. Every header matches exactly the row of
the table of 30_encoding.md R61 whose class is that length. -/
def Obligations.EveryHeaderMatchesExactlyItsClassRow : Prop :=
  (∀ h : Byte, 1 ≤ hdrLen h ∧ hdrLen h ≤ 9 ∧ hdrLen h = tz8 h + 1 ∧ headerClass h = hdrLen h ∧
    (h.getLsbD 0 = true → hdrLen h = 1) ∧ ∀ r ∈ classRows, (h &&& r.mask = r.pattern ↔ r.cls = hdrLen h)) ∧
  hdrLen 0x00 = 9 ∧ hdrLen 0x80 = 8

/-- Words written out from 30_encoding.md R62 to R71 decode to what they stand for. -/
def Obligations.WrittenOutWordsDecode : Prop :=
  decode (.request 0b01 300 0 0) = .ok (.enc 300) ∧
  decode (.request 0b10 0 0x04b2 2) = .ok (.dec 0x04b2 2) ∧
  decode (.form [0b11111111]) = .ok (.vi1 127) ∧
  decode (.form [0b10110010, 0b00000100]) = .ok (.vi2 300) ∧
  decode (.form [0b00000100, 0x00, 0x02]) = .ok (.vi3 16384) ∧
  decode (.form [0b10000000, 0xff, 0xff, 0xff, 0xff, 0xff, 0xff, 0xff]) = .ok (.vi8 0xffffffffffffff) ∧
  decode (.form [0b00000000, 0xef, 0xcd, 0xab, 0x89, 0x67, 0x45, 0x23, 0x01]) = .ok (.vi9 0x0123456789abcdef)

/-- Every well-formed instruction, with every operand its encoding admits, is what its encoding decodes to. -/
def Obligations.DecodeOfEncodeIsTheInstruction : Prop :=
  ∀ i : Instr, i.wellFormed = true → decode (encode i) = .ok i

/-- A byte string that decodes as a whole form is the encoding of the well-formed instruction it decodes to. -/
def Obligations.EncodeOfDecodedFormIsTheBytes : Prop :=
  ∀ (bs : List Byte) (i : Instr), decode (.form bs) = .ok i → i.wellFormed = true ∧ encode i = .form bs

/-- 30_encoding.md R78: the length of a form is known from its header alone. A byte string of at least that length has a
form at its head, and the rest is what follows; a shorter one is truncated. -/
def Obligations.FormLengthIsKnownFromTheHeader : Prop :=
  ∀ (h : Byte) (t : List Byte),
    (hdrLen h ≤ (h :: t).length → ∃ i, decodeForm (h :: t) = .ok (i, (h :: t).drop (hdrLen h))) ∧
    ((h :: t).length < hdrLen h → decodeForm (h :: t) = .error (.truncated (hdrLen h)))

/-- 20_memory.md R42: read as one 72-bit number, the bus is `LE` of its lanes, and lane i is bits [8i+7:8i]. -/
def Obligations.BusIsLittleEndianOfItsLanes : Prop :=
  ∀ bus : Bus, le (lanes bus 0 9) = bus.toNat ∧
    ∀ i, i < 9 → (lane bus i).toNat = bus.toNat / 2 ^ (8 * i) % 256 ∧
      ∀ k, k < 8 → (lane bus i).getLsbD k = bus.getLsbD (8 * i + k)

/-- 00_scope.md R9: `MemWrite(i, n, v)` then `MemRead(i, n)` gives the n low bytes of v, and no other lane changes. -/
def Obligations.MemReadAfterMemWrite : Prop :=
  ∀ (bus : Bus) (i n v : Nat), i + n ≤ 9 →
    memRead (memWrite bus i n v) i n = v % 2 ^ (8 * n) ∧
    ∀ j, j < 9 → (j < i ∨ i + n ≤ j) → lane (memWrite bus i n v) j = lane bus j

/-! ## ENC -/

/-- 40_encoder.md R90: `enc_len(v)` is the smallest class n in 1..8 with `v < 2^(7n)`, and 9 when there is none; and its
arithmetic. -/
def Obligations.EncLenIsTheSmallestFittingClass : Prop :=
  ∀ v : Value, 1 ≤ encLen v ∧ encLen v ≤ 9 ∧
    (∀ n, 1 ≤ n → n ≤ 8 → (encLen v = n ↔ v.toNat < 2 ^ (7 * n) ∧ ∀ m, 1 ≤ m → m < n → 2 ^ (7 * m) ≤ v.toNat)) ∧
    (encLen v = 9 ↔ 2 ^ 56 ≤ v.toNat) ∧
    encLen v = (if 56 < max 1 (bitlen v) then 9 else (max 1 (bitlen v) + 6) / 7)

/-- 40_encoder.md R94: the thresholds as a table of canonical ranges. -/
def Obligations.EncLenThresholdTable : Prop :=
  ∀ v : Value,
    (encLen v = 1 ↔ v.toNat ≤ 127) ∧
    (encLen v = 2 ↔ 128 ≤ v.toNat ∧ v.toNat ≤ 16383) ∧
    (encLen v = 3 ↔ 16384 ≤ v.toNat ∧ v.toNat ≤ 2097151) ∧
    (encLen v = 4 ↔ 2097152 ≤ v.toNat ∧ v.toNat ≤ 268435455) ∧
    (encLen v = 5 ↔ 268435456 ≤ v.toNat ∧ v.toNat ≤ 34359738367) ∧
    (encLen v = 6 ↔ 34359738368 ≤ v.toNat ∧ v.toNat ≤ 4398046511103) ∧
    (encLen v = 7 ↔ 4398046511104 ≤ v.toNat ∧ v.toNat ≤ 562949953421311) ∧
    (encLen v = 8 ↔ 562949953421312 ≤ v.toNat ∧ v.toNat ≤ 72057594037927935) ∧
    (encLen v = 9 ↔ 72057594037927936 ≤ v.toNat ∧ v.toNat ≤ 18446744073709551615)

/-- 40_encoder.md R91: ENC always answers a next state, with the form and its length in `enc_q`, unused lanes 0, and
nothing else changed (no flag). -/
def Obligations.EncLoadsTheFormAndNothingElse : Prop :=
  ∀ (v : Value) (s : State), ∃ t, exec (.enc v) s = .next t ∧
    t.encQ.valid = true ∧ t.encQ.len.toNat = encLen v ∧
    (encLen v = 9 → t.encQ.bytes.toNat = v.toNat * 256) ∧
    (encLen v ≤ 8 → t.encQ.bytes.toNat = v.toNat * 2 ^ encLen v + 2 ^ (encLen v - 1)) ∧
    (∀ i, encLen v ≤ i → i < 9 → lane t.encQ.bytes i = 0) ∧
    t.decQ = s.decQ ∧ t.inputs = s.inputs ∧ t.draws = s.draws

/-- 40_encoder.md R92: ENC's form is of the shortest class that holds v (so never overlong), and its length never
decreases as v grows. -/
def Obligations.EncFormIsShortestAndMonotone : Prop :=
  (∀ (v : Value) (s : State), ∃ t, exec (.enc v) s = .next t ∧ fitsClass t.encQ.len.toNat v = true ∧
    ∀ m, 1 ≤ m → m < t.encQ.len.toNat → fitsClass m v = false) ∧
  (∀ (v w : Value) (s u t t' : State), exec (.enc v) s = .next t → exec (.enc w) u = .next t' → v.toNat ≤ w.toNat →
    t.encQ.len.toNat ≤ t'.encQ.len.toNat)

/-- 40_encoder.md R93: ENC is deterministic and injective: two requests give the same `len` and `bytes` exactly when
their values are the same, whatever the states they run in. -/
def Obligations.EncIsDeterministicAndInjective : Prop :=
  ∀ (v w : Value) (s u t t' : State), exec (.enc v) s = .next t → exec (.enc w) u = .next t' →
    ((t.encQ.len = t'.encQ.len ∧ t.encQ.bytes = t'.encQ.bytes) ↔ v = w)

/-- 30_encoding.md R62 to R70: the bytes ENC gives are laid out as the class of their length says, bit for bit. -/
def Obligations.EncFormHasItsClassLayout : Prop :=
  ∀ (v : Value) (s t : State), exec (.enc v) s = .next t →
    encode (classInstr (encLen v) v) = .form (lanes t.encQ.bytes 0 t.encQ.len.toNat)

/-! ## DEC -/

/-- 41_decoder.md R115 with R112, R113, R114: DEC always answers a next state, with the response its pseudocode gives and
nothing else changed. `a` is the effective count, `n` the declared length of the header in lane 0. -/
def Obligations.DecLoadsTheResponseAndNothingElse : Prop :=
  ∀ (bytes : Bus) (avail : Len) (s : State), ∃ t, exec (.dec bytes avail) s = .next t ∧
    t.decQ.valid = true ∧ t.encQ = s.encQ ∧ t.inputs = s.inputs ∧ t.draws = s.draws ∧
    (∀ a n : Nat, a = min avail.toNat 9 → n = hdrLen (lane bytes 0) →
      (a = 0 → t.decQ.err = true ∧ t.decQ.len = 0 ∧ t.decQ.need = 0 ∧ t.decQ.value = 0) ∧
      (1 ≤ a → a < n → t.decQ.err = true ∧ t.decQ.len = 0 ∧ t.decQ.need.toNat = n ∧ t.decQ.value = 0) ∧
      (n ≤ a → t.decQ.err = false ∧ t.decQ.len.toNat = n ∧ t.decQ.need.toNat = n ∧
        (n = 9 → t.decQ.value.toNat = le (lanes bytes 1 8)) ∧
        (n ≤ 8 → t.decQ.value.toNat = le (lanes bytes 0 n) / 2 ^ n)))

/-- 60_exceptions.md R141: the fields of a Truncated response; `need` is in 2..9 when a byte is available. -/
def Obligations.TruncatedResponseFields : Prop :=
  ∀ (bytes : Bus) (avail : Len) (s : State),
    (avail.toNat = 0 ∨ min avail.toNat 9 < hdrLen (lane bytes 0)) →
    ∃ t, exec (.dec bytes avail) s = .next t ∧ t.decQ.err = true ∧ t.decQ.len = 0 ∧ t.decQ.value = 0 ∧
      (1 ≤ avail.toNat → t.decQ.need.toNat = hdrLen (lane bytes 0) ∧ 2 ≤ t.decQ.need.toNat ∧ t.decQ.need.toNat ≤ 9) ∧
      (avail.toNat = 0 → t.decQ.need = 0)

/-- 41_decoder.md R116: DEC of the bytes ENC gave, with at least that many available and any other lanes, returns the
value, and `len = need = enc_len(v)`. -/
def Obligations.DecOfEncIsTheValue : Prop :=
  ∀ (v : Value) (window : Bus) (avail : Len) (s t : State), exec (.enc v) s = .next t →
    (∀ i, i < encLen v → lane window i = lane t.encQ.bytes i) → encLen v ≤ avail.toNat →
    ∃ u, exec (.dec window avail) t = .next u ∧ u.decQ.valid = true ∧ u.decQ.err = false ∧ u.decQ.value = v ∧
      u.decQ.len = t.encQ.len ∧ u.decQ.need = t.encQ.len ∧ u.decQ.len.toNat = encLen v ∧ u.encQ = t.encQ

/-- 41_decoder.md R119: a proper prefix of a form ENC gives is Truncated, never a value: `need` is the form's length when
at least one byte is available, and 0 when none is. -/
def Obligations.DecOfAPrefixIsTruncated : Prop :=
  ∀ (v : Value) (window : Bus) (avail : Len) (s t : State), exec (.enc v) s = .next t →
    (∀ i, i < avail.toNat → lane window i = lane t.encQ.bytes i) → avail.toNat < encLen v →
    ∃ u, exec (.dec window avail) t = .next u ∧ u.decQ.err = true ∧ u.decQ.len = 0 ∧ u.decQ.value = 0 ∧
      (1 ≤ avail.toNat → u.decQ.need.toNat = encLen v) ∧ (avail.toNat = 0 → u.decQ.need = 0)

/-- 41_decoder.md R117: a form of any class n whose value fits n decodes to that value with length n and no error,
overlong or not; `02 00` and nine zero bytes both give 0. -/
def Obligations.OverlongFormsDecode : Prop :=
  (∀ (n : Nat) (v : Value) (bs : List Byte) (window : Bus) (avail : Len) (s : State), 1 ≤ n → n ≤ 9 →
    fitsClass n v = true → encode (classInstr n v) = .form bs → lanes window 0 n = bs → n ≤ avail.toNat →
    ∃ t, exec (.dec window avail) s = .next t ∧ t.decQ.err = false ∧ t.decQ.value = v ∧ t.decQ.len.toNat = n) ∧
  (∀ s, ∃ t, exec (.dec (busOfBytes [0x02, 0x00]) 2) s = .next t ∧ t.decQ = ⟨true, false, 2, 2, 0⟩) ∧
  (∀ s, ∃ t, exec (.dec (busOfBytes (List.replicate 9 0x00)) 9) s = .next t ∧ t.decQ = ⟨true, false, 9, 9, 0⟩)

/-- 41_decoder.md R118: the lanes the response does not depend on, in its three cases. -/
def Obligations.LanesWithNoEffectOnTheResponse : Prop :=
  ∀ (w w' : Bus) (avail : Len) (s t t' : State) (a n : Nat), a = min avail.toNat 9 → n = hdrLen (lane w 0) →
    exec (.dec w avail) s = .next t → exec (.dec w' avail) s = .next t' →
    (a = 0 ∨ (1 ≤ a ∧ a < n ∧ lane w' 0 = lane w 0) ∨ (n ≤ a ∧ ∀ i, i < n → lane w' i = lane w i)) → t = t'

/-- 30_encoding.md R74: 9..15 available lanes all mean "9 or more". -/
def Obligations.NineOrMoreAvailableAreTheSame : Prop :=
  ∀ (w : Bus) (a b : Len) (s : State), 9 ≤ a.toNat → 9 ≤ b.toNat → exec (.dec w a) s = exec (.dec w b) s

/-- 20_memory.md R53: the caller's cursor after a response moves by the declared length on success, by 0 on error. -/
def Obligations.CursorMovesByTheBytesConsumed : Prop :=
  ∀ (w : Bus) (avail : Len) (s t : State) (c : Nat), exec (.dec w avail) s = .next t →
    (t.decQ.err = true → cursorAfter c t.decQ = c) ∧
    (t.decQ.err = false → cursorAfter c t.decQ = c + hdrLen (lane w 0) ∧ t.decQ.need = t.decQ.len)

/-- 10_state.md R25: what a unit writes at a request transfer is a function of the request alone: no earlier request,
response or reset affects it. -/
def Obligations.ResponseIsAFunctionOfTheRequest : Prop :=
  (∀ (v : Value) (s u : State), ∃ t t', exec (.enc v) s = .next t ∧ exec (.enc v) u = .next t' ∧ t.encQ = t'.encQ) ∧
  (∀ (w : Bus) (a : Len) (s u : State), ∃ t t', exec (.dec w a) s = .next t ∧ exec (.dec w a) u = .next t' ∧
    t.decQ = t'.decQ)

/-! ## The classes of form as instructions (the model's reading, log 1) -/

/-- 30_encoding.md R62 to R70, log 1: a whole form of class n, with a value the class holds, leaves that value in `dec_q`
with `len = need = n`, and changes nothing else. -/
def Obligations.ClassFormsLoadTheirValue : Prop :=
  ∀ (v : Value) (s : State),
    (v.toNat < 2 ^ 7 → exec (.vi1 v) s = .next { s with decQ := ⟨true, false, 1, 1, v⟩ }) ∧
    (v.toNat < 2 ^ 14 → exec (.vi2 v) s = .next { s with decQ := ⟨true, false, 2, 2, v⟩ }) ∧
    (v.toNat < 2 ^ 21 → exec (.vi3 v) s = .next { s with decQ := ⟨true, false, 3, 3, v⟩ }) ∧
    (v.toNat < 2 ^ 28 → exec (.vi4 v) s = .next { s with decQ := ⟨true, false, 4, 4, v⟩ }) ∧
    (v.toNat < 2 ^ 35 → exec (.vi5 v) s = .next { s with decQ := ⟨true, false, 5, 5, v⟩ }) ∧
    (v.toNat < 2 ^ 42 → exec (.vi6 v) s = .next { s with decQ := ⟨true, false, 6, 6, v⟩ }) ∧
    (v.toNat < 2 ^ 49 → exec (.vi7 v) s = .next { s with decQ := ⟨true, false, 7, 7, v⟩ }) ∧
    (v.toNat < 2 ^ 56 → exec (.vi8 v) s = .next { s with decQ := ⟨true, false, 8, 8, v⟩ }) ∧
    exec (.vi9 v) s = .next { s with decQ := ⟨true, false, 9, 9, v⟩ }

/-- 41_decoder.md R113, R114, log 1: DEC of a window whose available bytes begin with a form is that form's own class
instruction, whatever follows it. -/
def Obligations.DecRunsTheClassOfItsWindow : Prop :=
  ∀ (w : Bus) (avail : Len) (i : Instr) (rest : List Byte) (s : State),
    decodeForm (lanes w 0 (min avail.toNat 9)) = .ok (i, rest) → exec (.dec w avail) s = exec i s

/-! ## The edge -/

/-- 70_reset_and_hazards.md R160, 10_state.md R28: a reset edge loads the reset values, whatever the other pins and the
state are; it is no transfer on any channel. -/
def Obligations.ResetEdgeLoadsTheResetValues : Prop :=
  ∀ s : State, s.sampled.rst = true →
    s.encRequest = [] ∧ s.decRequest = [] ∧ s.encDelivery = [] ∧ s.decDelivery = [] ∧
    ∃ t, step s = .next t ∧
      t.encQ.valid = false ∧ t.encQ.len = 0 ∧ t.encQ.bytes = 0 ∧
      t.decQ.valid = false ∧ t.decQ.err = false ∧ t.decQ.len = 0 ∧ t.decQ.need = 0 ∧ t.decQ.value = 0 ∧
      t.inputs = s.advance.inputs ∧ t.draws = s.advance.draws

/-- 10_state.md R28: the reset values of the two response registers. -/
def Obligations.ResetStateHoldsTheResetValues : Prop :=
  State.reset.encQ.valid = false ∧ State.reset.encQ.len = 0 ∧ State.reset.encQ.bytes = 0 ∧
  State.reset.decQ.valid = false ∧ State.reset.decQ.err = false ∧ State.reset.decQ.len = 0 ∧
  State.reset.decQ.need = 0 ∧ State.reset.decQ.value = 0

/-- 70_reset_and_hazards.md R163: the cycle step of each unit. A reset edge loads the reset values. Where `rst` is 0 and the `rsp_ready` pins have levels, the
edge answers a next state in which each unit has taken its request, or let its response go keeping the data fields, or
kept its register. -/
def Obligations.EachUnitStepsByItsCycleRule : Prop :=
  (∀ s : State, s.sampled.rst = true → ∃ t, step s = .next t ∧ t.encQ = EncQ.reset ∧ t.decQ = DecQ.reset) ∧
  ∀ (s : State) (p : Inputs) (e d : Bool), p = s.sampled → p.rst = false → p.encRspReady = .level e →
    p.decRspReady = .level d →
    ∃ t, step s = .next t ∧ t.inputs = s.advance.inputs ∧ t.draws = s.advance.draws ∧
      (p.encReqValid = true → (s.encQ.valid = false ∨ e = true) →
        t.encQ = ⟨true, BitVec.ofNat 4 (encLen p.encReqValue), encBytes p.encReqValue⟩) ∧
      (¬ (p.encReqValid = true ∧ (s.encQ.valid = false ∨ e = true)) → s.encQ.valid = true → e = true →
        t.encQ = { s.encQ with valid := false }) ∧
      (¬ (p.encReqValid = true ∧ (s.encQ.valid = false ∨ e = true)) → ¬ (s.encQ.valid = true ∧ e = true) →
        t.encQ = s.encQ) ∧
      (p.decReqValid = true → (s.decQ.valid = false ∨ d = true) →
        t.decQ = decResponse p.decReqBytes p.decReqAvail) ∧
      (¬ (p.decReqValid = true ∧ (s.decQ.valid = false ∨ d = true)) → s.decQ.valid = true → d = true →
        t.decQ = { s.decQ with valid := false }) ∧
      (¬ (p.decReqValid = true ∧ (s.decQ.valid = false ∨ d = true)) → ¬ (s.decQ.valid = true ∧ d = true) →
        t.decQ = s.decQ)

/-- 30_encoding.md R71, 70_reset_and_hazards.md R163: the instruction a transfer selects is the one the step runs. The step
adds to `exec` the moving past the sampled pins and the response transfers. The third clause is the model's own choice
(DEDUCED, log 8): where both channels transfer, R71 allows both at one edge and no rule orders them (R50 and R150 say there
is no order between the units); the model makes the response transfers first, runs ENC, and then DEC. The effect on each
unit, in which the order does not show, is R163's and is stated by EachUnitStepsByItsCycleRule. -/
def Obligations.StepRunsTheSelectedInstructions : Prop :=
  ∀ (s : State) (p : Inputs) (e d : Bool), p = s.sampled → p.rst = false → p.encRspReady = .level e →
    p.decRspReady = .level d →
    (∀ i, decode (.request (selectVector p e d s) p.encReqValue p.decReqBytes p.decReqAvail) = .ok i →
      step s = exec i ((s.advance.drainEnc e).drainDec d)) ∧
    (selectVector p e d s = 0b00 → step s = .next ((s.advance.drainEnc e).drainDec d)) ∧
    (selectVector p e d s = 0b11 → ∃ t, exec (.enc p.encReqValue) ((s.advance.drainEnc e).drainDec d) = .next t ∧
      step s = exec (.dec p.decReqBytes p.decReqAvail) t)

/-- 30_encoding.md R61, R71, log 1: where a DEC request is the one transfer of an edge, and its available bytes begin with
a form, the step is `exec` of that form's class instruction. -/
def Obligations.StepRunsTheClassOfThePresentedForm : Prop :=
  ∀ (s : State) (p : Inputs) (e d : Bool) (i : Instr) (rest : List Byte), p = s.sampled → p.rst = false →
    p.encRspReady = .level e → p.decRspReady = .level d → selectVector p e d s = 0b10 →
    decodeForm (lanes p.decReqBytes 0 (min p.decReqAvail.toNat 9)) = .ok (i, rest) →
    step s = exec i ((s.advance.drainEnc e).drainDec d)

/-- Log 1, log 2: a table word placed where the next edge samples its pins is run: the step is exactly `exec` of the
instruction the decoder reads from it. -/
def Obligations.StepRunsTheFetchedTableWord : Prop :=
  ∀ (s : State) (nbits w : Nat) (i : Instr), decodeTableWord nbits w = some i →
    step (s.withFetchWord nbits w) = exec i s

/-- 70_reset_and_hazards.md R165: `req_ready = (rst == 0) and (q.valid == 0 or rsp_ready == 1)`, for each unit. -/
def Obligations.ReqReadyEquation : Prop :=
  ∀ (s : State) (rst e d : Bool),
    ((s.outputs rst e d).encReqReady = true ↔ rst = false ∧ (s.encQ.valid = false ∨ e = true)) ∧
    ((s.outputs rst e d).decReqReady = true ↔ rst = false ∧ (s.decQ.valid = false ∨ d = true))

/-- 10_state.md R23, R24, 70_reset_and_hazards.md R164: the response pins equal the register fields at all times, whatever
the input pins are. -/
def Obligations.ResponsePinsAreTheRegisterFields : Prop :=
  ∀ (s : State) (rst e d : Bool),
    (s.outputs rst e d).encRspValid = s.encQ.valid ∧ (s.outputs rst e d).encRspLen = s.encQ.len ∧
    (s.outputs rst e d).encRspBytes = s.encQ.bytes ∧ (s.outputs rst e d).decRspValid = s.decQ.valid ∧
    (s.outputs rst e d).decRspErr = s.decQ.err ∧ (s.outputs rst e d).decRspLen = s.decQ.len ∧
    (s.outputs rst e d).decRspNeed = s.decQ.need ∧ (s.outputs rst e d).decRspValue = s.decQ.value

/-- 70_reset_and_hazards.md R166: a response held while its `rsp_ready` is 0 does not change, and no request is taken,
at every edge but a reset edge. -/
def Obligations.AHeldResponseDoesNotChange : Prop :=
  ∀ (s t : State), s.sampled.rst = false → step s = .next t →
    (s.encQ.valid = true → s.sampled.encRspReady = .level false → t.encQ = s.encQ ∧ s.encRequest = []) ∧
    (s.decQ.valid = true → s.sampled.decRspReady = .level false → t.decQ = s.decQ ∧ s.decRequest = [])

/-- 70_reset_and_hazards.md R167: request fields have no effect at an edge that is not their request transfer. -/
def Obligations.RequestFieldsMatterOnlyAtTheirTransfer : Prop :=
  ∀ (s : State) (p : Inputs) (ps : List Inputs),
    (∀ v : Value, State.encRequest { s with inputs := p :: ps } = [] →
      step { s with inputs := { p with encReqValue := v } :: ps } = step { s with inputs := p :: ps }) ∧
    (∀ (w : Bus) (a : Len), State.decRequest { s with inputs := p :: ps } = [] →
      step { s with inputs := { p with decReqBytes := w, decReqAvail := a } :: ps } = step { s with inputs := p :: ps })

/-- 60_exceptions.md R150: the units share only `clk` and `rst`; no request to one changes the other's state or response.
Two edges that agree on one unit's register, its pins and `rst` agree on that unit's register after. -/
def Obligations.UnitsAreIndependent : Prop :=
  ∀ (s t s' t' : State), step s = .next s' → step t = .next t' → s.sampled.rst = t.sampled.rst →
    (s.decQ = t.decQ → s.sampled.decReqValid = t.sampled.decReqValid →
      s.sampled.decReqBytes = t.sampled.decReqBytes → s.sampled.decReqAvail = t.sampled.decReqAvail →
      s.sampled.decRspReady = t.sampled.decRspReady → s'.decQ = t'.decQ) ∧
    (s.encQ = t.encQ → s.sampled.encReqValid = t.sampled.encReqValid →
      s.sampled.encReqValue = t.sampled.encReqValue → s.sampled.encRspReady = t.sampled.encRspReady →
      s'.encQ = t'.encQ)

/-- 70_reset_and_hazards.md R171, log 6: an edge has no next state exactly where it is no reset edge and the caller makes
a `rsp_ready` from `req_ready`; it is then refused by name, and no step faults. -/
def Obligations.StepStopsOnlyOnACombinationalLoop : Prop :=
  ∀ s : State,
    ((s.sampled.rst = true ∨ s.noLoop = true) → ∃ t, step s = .next t) ∧
    (s.sampled.rst = false → s.noLoop = false → ∃ u, step s = .refused (.combinationalLoop u))

/-- 70_reset_and_hazards.md R173: full throughput at one cycle of latency. While `rst` is 0 and both `rsp_ready` are 1,
every request offered is taken, and its response is valid `LATENCY` edges later, whatever was held. -/
def Obligations.OneOperationPerCycleAtOneCycleLatency : Prop :=
  ∀ s : State, s.sampled.rst = false → s.sampled.encRspReady = .level true → s.sampled.decRspReady = .level true →
    ∃ t, Sys2Proof.core.run Config.latency s = .next t ∧
      (s.sampled.encReqValid = true → s.encRequest = [s.sampled.encReqValue] ∧
        t.encHeld = [(BitVec.ofNat 4 (encLen s.sampled.encReqValue), encBytes s.sampled.encReqValue)]) ∧
      (s.sampled.encReqValid = false → t.encHeld = []) ∧
      (s.sampled.decReqValid = true → s.decRequest = [(s.sampled.decReqBytes, s.sampled.decReqAvail)] ∧
        t.decHeld = [decResponse s.sampled.decReqBytes s.sampled.decReqAvail]) ∧
      (s.sampled.decReqValid = false → t.decHeld = [])

/-! ## Runs -/

/-- 70_reset_and_hazards.md R168: over any run without a reset edge, from any state, the responses a unit delivers and
then the one it holds are the one held before and then the answer to each request taken, in order, one for one; a unit
holds at most one. -/
def Obligations.UnitsAnswerEachRequestOnceInOrder : Prop :=
  ∀ (k : Nat) (s t : State), Sys2Proof.core.run k s = .next t → noResetOver k s = true →
    eventsOver State.encDelivery k s ++ t.encHeld =
      s.encHeld ++ (eventsOver State.encRequest k s).map (fun v => (BitVec.ofNat 4 (encLen v), encBytes v)) ∧
    eventsOver State.decDelivery k s ++ t.decHeld =
      s.decHeld ++ (eventsOver State.decRequest k s).map (fun r => decResponse r.1 r.2) ∧
    t.encHeld.length ≤ 1 ∧ t.decHeld.length ≤ 1

/-- 30_encoding.md R76, 40_encoder.md R91, 41_decoder.md R115, R120, 60_exceptions.md R141: every step keeps the invariant
of the response registers. -/
def Obligations.EveryStepKeepsTheResponseInvariant : Prop :=
  ∀ s t : State, s.Inv → step s = .next t → t.Inv

/-- The invariant holds after reset. -/
def Obligations.ResponseInvariantHoldsAtReset : Prop := State.reset.Inv

/-- 10_state.md R29, 70_reset_and_hazards.md R162: one reset edge is enough: from any state at all (power-up included) it
leaves a state that meets the invariant, in which both units accept a request. -/
def Obligations.OneResetEdgeMakesTheBlockReady : Prop :=
  ∀ s : State, s.sampled.rst = true → ∃ t, step s = .next t ∧ t.Inv ∧
    ∀ e d : Bool, (t.outputs false e d).encReqReady = true ∧ (t.outputs false e d).decReqReady = true ∧
      (t.outputs false e d).encRspValid = false ∧ (t.outputs false e d).decRspValid = false

/-- 30_encoding.md R80 (RT), 70_reset_and_hazards.md R172: from any state, a reset edge, ENC v, and DEC of the bytes ENC
gave in the very next cycle leave v in `dec_q`, for every v. -/
def Obligations.RoundTripThroughBothUnitsInThreeCycles : Prop :=
  ∀ (v : Value) (s : State) (ps : List Inputs),
    s.inputs = resetInputs :: (roundTripLines v).map Line.inputs ++ ps →
    ∃ t, Sys2Proof.core.run 3 s = .next t ∧ t.inputs = ps ∧
      t.encQ = ⟨false, BitVec.ofNat 4 (encLen v), encBytes v⟩ ∧
      t.decQ = ⟨true, false, BitVec.ofNat 4 (encLen v), BitVec.ofNat 4 (encLen v), v⟩

/-- 30_encoding.md R80 (DECSTREAM), 20_memory.md R53: the caller's loop over the forms of any values, one after another,
decodes those values and ends with the cursor at the end. -/
def Obligations.DecStreamDecodesConcatenatedForms : Prop :=
  ∀ vs : List Value, decStream (vs.flatMap encForm) = ⟨vs, (vs.flatMap encForm).length, false⟩

/-- 30_encoding.md R80 (DECSTREAM), 41_decoder.md R119: where the stream ends inside a form, the loop decodes the forms
before it and stops on Truncated with the cursor at that form. -/
def Obligations.DecStreamStopsAtACutForm : Prop :=
  ∀ (vs : List Value) (v : Value) (k : Nat), 1 ≤ k → k < encLen v →
    decStream (vs.flatMap encForm ++ (encForm v).take k) = ⟨vs, (vs.flatMap encForm).length, true⟩
end

