-- ==== Sys2Proof/Laws/State.lean ====
section
/-! SUPPORT. One lemma per field per update of State, so that no later proof unfolds a record update. -/

namespace Sys2Proof.Machine

variable (s : State)

/-! ## loadDec -/

@[simp] theorem State.loadDec_encQ (q : DecQ) : (s.loadDec q).encQ = s.encQ := rfl
@[simp] theorem State.loadDec_decQ (q : DecQ) : (s.loadDec q).decQ = q := rfl
@[simp] theorem State.loadDec_inputs (q : DecQ) : (s.loadDec q).inputs = s.inputs := rfl
@[simp] theorem State.loadDec_draws (q : DecQ) : (s.loadDec q).draws = s.draws := rfl

/-! ## loadEnc -/

@[simp] theorem State.loadEnc_valid (n : Nat) (b : Bus) : (s.loadEnc n b).encQ.valid = true := rfl
@[simp] theorem State.loadEnc_len (n : Nat) (b : Bus) : (s.loadEnc n b).encQ.len = BitVec.ofNat 4 n := rfl
@[simp] theorem State.loadEnc_decQ (n : Nat) (b : Bus) : (s.loadEnc n b).decQ = s.decQ := rfl
@[simp] theorem State.loadEnc_inputs (n : Nat) (b : Bus) : (s.loadEnc n b).inputs = s.inputs := rfl
@[simp] theorem State.loadEnc_draws (n : Nat) (b : Bus) : (s.loadEnc n b).draws = s.draws := rfl

/-! ## loadReset -/

@[simp] theorem State.loadReset_encQ : s.loadReset.encQ = EncQ.reset := rfl
@[simp] theorem State.loadReset_decQ : s.loadReset.decQ = DecQ.reset := rfl
@[simp] theorem State.loadReset_inputs : s.loadReset.inputs = s.inputs := rfl
@[simp] theorem State.loadReset_draws : s.loadReset.draws = s.draws := rfl

/-! ## drainEnc, drainDec -/

variable (r : Bool)

theorem State.drainEnc_encQ :
    (s.drainEnc r).encQ = ⟨s.encQ.valid && !r, s.encQ.len, s.encQ.bytes⟩ := by
  obtain ⟨⟨v, l, b⟩, d, i, n⟩ := s
  cases v <;> cases r <;> rfl

theorem State.drainDec_decQ :
    (s.drainDec r).decQ = ⟨s.decQ.valid && !r, s.decQ.err, s.decQ.len, s.decQ.need, s.decQ.value⟩ := by
  obtain ⟨e, ⟨v, er, l, n, x⟩, i, k⟩ := s
  cases v <;> cases r <;> rfl

@[simp] theorem State.drainEnc_decQ : (s.drainEnc r).decQ = s.decQ := by unfold State.drainEnc; split <;> rfl
@[simp] theorem State.drainEnc_inputs : (s.drainEnc r).inputs = s.inputs := by unfold State.drainEnc; split <;> rfl
@[simp] theorem State.drainEnc_draws : (s.drainEnc r).draws = s.draws := by unfold State.drainEnc; split <;> rfl
@[simp] theorem State.drainDec_encQ : (s.drainDec r).encQ = s.encQ := by unfold State.drainDec; split <;> rfl
@[simp] theorem State.drainDec_inputs : (s.drainDec r).inputs = s.inputs := by unfold State.drainDec; split <;> rfl
@[simp] theorem State.drainDec_draws : (s.drainDec r).draws = s.draws := by unfold State.drainDec; split <;> rfl

/-! ## advance -/

@[simp] theorem State.advance_encQ : s.advance.encQ = s.encQ := by unfold State.advance; split <;> rfl
@[simp] theorem State.advance_decQ : s.advance.decQ = s.decQ := by unfold State.advance; split <;> rfl

theorem State.advance_inputs : s.advance.inputs = s.inputs.tail := by
  unfold State.advance; split <;> simp_all

theorem State.advance_draws : s.advance.draws = s.draws + (if s.inputs = [] then 1 else 0) := by
  unfold State.advance; split <;> simp_all

/-- Two states with the same fields are the same state. -/
theorem State.eq_of_fields {s t : State} (he : s.encQ = t.encQ) (hd : s.decQ = t.decQ) (hi : s.inputs = t.inputs)
    (hk : s.draws = t.draws) : s = t := by
  cases s; cases t; simp_all

end Sys2Proof.Machine
end

