-- ==== Sys2Proof/Laws/Lanes.lean ====
section
/-! SUPPORT. What the byte-lane operations do (00_scope.md R8, R9; 20_memory.md R42): lanes as numbers, reads, writes. -/

namespace Sys2Proof

theorem lane_toNat (bus : Bus) (i : Nat) : (lane bus i).toNat = bus.toNat / 2 ^ (8 * i) % 2 ^ 8 := by
  simp [lane, BitVec.extractLsb'_toNat, Nat.shiftRight_eq_div_pow]

theorem lanes_length (bus : Bus) (i n : Nat) : (lanes bus i n).length = n := by
  induction n generalizing i with
  | zero => rfl
  | succ n ih => simp [lanes, ih]

theorem pow_eight_succ (n : Nat) : 2 ^ (8 * (n + 1)) = 2 ^ 8 * 2 ^ (8 * n) := by
  rw [← Nat.pow_add]; congr 1; omega

theorem div_pow_eight_succ (x i : Nat) : x / 2 ^ (8 * (i + 1)) = x / 2 ^ (8 * i) / 2 ^ 8 := by
  rw [Nat.div_div_eq_div_mul, ← Nat.pow_add]; rfl

/-- `n` lanes from lane i read little-endian are the bus's bits from 8i upward, 8n of them. -/
theorem le_lanes (bus : Bus) (i n : Nat) : le (lanes bus i n) = bus.toNat / 2 ^ (8 * i) % 2 ^ (8 * n) := by
  induction n generalizing i with
  | zero => simp [lanes, le, Nat.mod_one]
  | succ n ih =>
    simp only [lanes, le, ih, lane_toNat, div_pow_eight_succ]
    rw [pow_eight_succ, Nat.mod_mul]; rfl

theorem le_lt (bs : List Byte) : le bs < 2 ^ (8 * bs.length) := by
  induction bs with
  | nil => simp [le]
  | cons b bs ih =>
    have := b.isLt
    rw [List.length_cons, pow_eight_succ]
    simp only [le]; omega

/-- Lanes whose number is `le bs` are the bytes `bs`. -/
theorem lanes_eq_of_le (bs : List Byte) (i : Nat) (bus : Bus)
    (h : bus.toNat / 2 ^ (8 * i) % 2 ^ (8 * bs.length) = le bs) : lanes bus i bs.length = bs := by
  induction bs generalizing i with
  | nil => rfl
  | cons b bs ih =>
    rw [List.length_cons, pow_eight_succ, Nat.mod_mul] at h
    simp only [le] at h
    have hb := b.isLt
    have hlane : lane bus i = b := by
      apply BitVec.eq_of_toNat_eq; rw [lane_toNat]; omega
    simp only [List.length_cons, lanes, hlane]
    rw [ih (i + 1)]
    rw [div_pow_eight_succ]; omega

/-- The bus made from up to 9 bytes carries them in its low lanes. -/
theorem lanes_busOfBytes (bs : List Byte) (h : bs.length ≤ 9) : lanes (busOfBytes bs) 0 bs.length = bs := by
  apply lanes_eq_of_le
  have := le_lt bs
  have h9 : 2 ^ (8 * bs.length) ≤ 2 ^ 72 := Nat.pow_le_pow_right (by decide) (by omega)
  simp only [busOfBytes, BitVec.toNat_ofNat, Nat.mul_zero, Nat.pow_zero, Nat.div_one]
  rw [Nat.mod_eq_of_lt (a := le bs) (by omega), Nat.mod_eq_of_lt this]

theorem busOfBytes_toNat (bs : List Byte) (h : bs.length ≤ 9) : (busOfBytes bs).toNat = le bs := by
  have := le_lt bs
  have h9 : 2 ^ (8 * bs.length) ≤ 2 ^ 72 := Nat.pow_le_pow_right (by decide) (by omega)
  simp only [busOfBytes, BitVec.toNat_ofNat]
  exact Nat.mod_eq_of_lt (by omega)

/-- Buses with the same nine lanes are the same. -/
theorem lane_ext {a b : Bus} (h : ∀ i, i < 9 → lane a i = lane b i) : a = b := by
  apply BitVec.eq_of_getLsbD_eq
  intro k hk
  have := congrArg (fun x => x.getLsbD (k % 8)) (h (k / 8) (by omega))
  simp [lane, Nat.mod_lt, Nat.div_add_mod] at this
  exact this

/-- Buses that agree on lanes i..i+n-1 give the same list of lanes. -/
theorem lanes_congr {a b : Bus} {i n : Nat} (h : ∀ j, i ≤ j → j < i + n → lane a j = lane b j) :
    lanes a i n = lanes b i n := by
  induction n generalizing i with
  | zero => rfl
  | succ n ih =>
    simp only [lanes]
    rw [h i (by omega) (by omega), ih fun j h1 h2 => h j (by omega) (by omega)]

theorem lane_ofNat (v j : Nat) (hj : j < 9) : lane (BitVec.ofNat 72 v) j = BitVec.ofNat 8 (v / 2 ^ (8 * j)) := by
  apply BitVec.eq_of_toNat_eq
  simp only [lane, BitVec.extractLsb'_toNat, Nat.shiftRight_eq_div_pow, BitVec.toNat_ofNat]
  rw [← Nat.mod_mul_right_div_self, ← Nat.mod_mul_right_div_self, ← Nat.pow_add, Nat.mod_mod_of_dvd]
  exact Nat.pow_dvd_pow 2 (by omega)

namespace Machine

theorem memRead_eq (bus : Bus) (i n : Nat) : memRead bus i n = bus.toNat / 2 ^ (8 * i) % 2 ^ (8 * n) := le_lanes bus i n

theorem memRead_lt (bus : Bus) (i n : Nat) : memRead bus i n < 2 ^ (8 * n) := by
  rw [memRead_eq]; exact Nat.mod_lt _ (Nat.two_pow_pos _)

theorem memRead_congr {a b : Bus} {i n : Nat} (h : ∀ j, i ≤ j → j < i + n → lane a j = lane b j) :
    memRead a i n = memRead b i n := by rw [memRead, memRead, lanes_congr h]

theorem ff_getLsbD (k : Nat) : (0xFF : Bus).getLsbD k = decide (k < 8) := by
  by_cases h : k < 72
  · have : ∀ k, k < 72 → (0xFF : Bus).getLsbD k = decide (k < 8) := by decide
    exact this k h
  · rw [BitVec.getLsbD_of_ge _ _ (by omega)]
    exact (decide_eq_false (by omega)).symm

/-- Writing lane i changes lane i and no other. -/
theorem lane_setLane (bus : Bus) (i j : Nat) (b : Byte) (hi : i < 9) (hj : j < 9) :
    lane (setLane bus i b) j = if j = i then b else lane bus j := by
  apply BitVec.eq_of_getLsbD_eq
  intro k hk
  have hlt : 8 * j + k < 72 := by omega
  simp only [lane, setLane, BitVec.getLsbD_extractLsb', BitVec.getLsbD_or, BitVec.getLsbD_and, BitVec.getLsbD_not,
    BitVec.getLsbD_shiftLeft, ff_getLsbD, BitVec.getLsbD_setWidth, hk, hlt, decide_true, Bool.true_and]
  by_cases hji : j = i
  · subst hji
    have h0 : 8 * j + k - 8 * j = k := by omega
    have h1 : ¬ 8 * j + k < 8 * j := by omega
    have h2 : k < 72 := by omega
    simp [h0, hk, h2]
  · rw [if_neg hji]
    simp only [BitVec.getLsbD_extractLsb', hk, decide_true, Bool.true_and]
    by_cases hlt2 : j < i
    · have : 8 * j + k < 8 * i := by omega
      simp [this]
    · have h1 : ¬ 8 * j + k < 8 * i := by omega
      have h2 : ¬ 8 * j + k - 8 * i < 8 := by omega
      have h3 : b.getLsbD (8 * j + k - 8 * i) = false := BitVec.getLsbD_of_ge _ _ (by omega)
      simp only [h1, h2, h3, decide_false, Bool.not_false, Bool.and_false, Bool.or_false, Bool.and_true]

/-- What `MemWrite` leaves in each lane. -/
theorem lane_memWrite (bus : Bus) (i n v j : Nat) (hn : i + n ≤ 9) (hj : j < 9) :
    lane (memWrite bus i n v) j = if i ≤ j ∧ j < i + n then BitVec.ofNat 8 (v / 2 ^ (8 * (j - i))) else lane bus j := by
  induction n generalizing bus i v with
  | zero => simp only [memWrite]; rw [if_neg (by omega)]
  | succ n ih =>
    simp only [memWrite]
    rw [ih _ _ _ (by omega), lane_setLane _ _ _ _ (by omega) hj]
    by_cases hij : j = i
    · subst hij; simp
    · by_cases h : i ≤ j ∧ j < i + (n + 1)
      · rw [if_pos (by omega), if_pos h, Nat.div_div_eq_div_mul]
        congr 2
        have : 8 * (j - i) = 8 + 8 * (j - (i + 1)) := by omega
        rw [this, Nat.pow_add]
      · rw [if_neg (by omega), if_neg hij, if_neg h]

/-- Writing all nine lanes leaves nothing of the old bus. -/
theorem memWrite_all (bus : Bus) (v : Nat) : memWrite bus 0 9 v = BitVec.ofNat 72 v := by
  apply lane_ext
  intro j hj
  rw [lane_memWrite _ _ _ _ _ (by omega) hj, if_pos (by omega), lane_ofNat _ _ hj]; rfl

/-- Loading the encoder's register replaces all of it and nothing else. -/
theorem loadEnc_eq (s : State) (n : Nat) (b : Bus) :
    s.loadEnc n b = { s with encQ := ⟨true, BitVec.ofNat 4 n, b⟩ } := by
  simp [State.loadEnc, Config.maxLen, memWrite_all]

end Machine

end Sys2Proof
end

