-- ==== Sys2Proof/Laws/Decoder.lean ====
section
/-! SUPPORT. What the decoder's functions compute: the declared length of a header (41_decoder.md R111) and the value of
a form (R113, R114) as numbers. -/

namespace Sys2Proof

/-- The class by the table of 30_encoding.md R61 is the declared length by trailing zeros. -/
theorem headerClass_eq_hdrLen : ∀ h : Byte, headerClass h = hdrLen h := by decide

theorem hdrLen_range : ∀ h : Byte, 1 ≤ hdrLen h ∧ hdrLen h ≤ 9 := by decide

theorem hdrLen_nine_iff : ∀ h : Byte, hdrLen h = 9 ↔ h = 0 := by decide

theorem hdrLen_marker_fin : ∀ (h : Byte) (n : Fin 9), 1 ≤ n.val →
    (hdrLen h = n.val ↔ h.toNat % 2 ^ n.val = 2 ^ (n.val - 1)) := by decide

/-- A header declares n in 1..8 exactly when its low n bits are the marker: a one above n-1 zeros. -/
theorem hdrLen_eq_iff_marker (h : Byte) (n : Nat) (h1 : 1 ≤ n) (h8 : n ≤ 8) :
    hdrLen h = n ↔ h.toNat % 2 ^ n = 2 ^ (n - 1) := hdrLen_marker_fin h ⟨n, by omega⟩ h1

namespace Machine

theorem headerByte_eq (bytes : Bus) : headerByte bytes = lane bytes 0 := by
  apply BitVec.eq_of_toNat_eq
  simp [headerByte, memRead, lanes, le]

theorem declaredLen_eq (bytes : Bus) : declaredLen bytes = hdrLen (lane bytes 0) := by
  rw [declaredLen, headerByte_eq]

theorem declaredLen_range (bytes : Bus) : 1 ≤ declaredLen bytes ∧ declaredLen bytes ≤ 9 := hdrLen_range _

theorem truncated_iff (bytes : Bus) (avail : Len) :
    truncated bytes avail = true ↔ effectiveAvail avail < declaredLen bytes := by
  have := (declaredLen_range bytes).1
  simp only [truncated, Bool.or_eq_true, beq_iff_eq, decide_eq_true_eq]; omega

theorem decResponse_truncated {bytes : Bus} {avail : Len} (h : effectiveAvail avail < declaredLen bytes) :
    decResponse bytes avail = raiseTruncated (truncatedNeed bytes avail) := by
  rw [decResponse, if_pos ((truncated_iff _ _).2 h)]

theorem decResponse_decoded {bytes : Bus} {avail : Len} (h : declaredLen bytes ≤ effectiveAvail avail) :
    decResponse bytes avail = decodedResponse (declaredLen bytes) (decValue bytes (declaredLen bytes)) := by
  rw [decResponse, if_neg (by rw [truncated_iff]; omega)]

theorem decValue_toNat {bytes : Bus} {n : Nat} (h8 : n ≤ 8) : (decValue bytes n).toNat = memRead bytes 0 n / 2 ^ n := by
  have hlt := memRead_lt bytes 0 n
  have hle : 2 ^ (8 * n) ≤ 2 ^ 64 := Nat.pow_le_pow_right (by decide) (by omega)
  rw [decValue, if_neg (by omega), BitVec.toNat_ushiftRight, Nat.shiftRight_eq_div_pow, BitVec.toNat_ofNat,
    Nat.mod_eq_of_lt (by omega)]

theorem decValue_toNat_nine (bytes : Bus) : (decValue bytes 9).toNat = memRead bytes 1 8 := by
  rw [decValue, if_pos rfl, BitVec.toNat_ofNat, Nat.mod_eq_of_lt (memRead_lt bytes 1 8)]

end Machine

end Sys2Proof
end

