-- ==== Sys2Proof/Laws/Encoder.lean ====
section
/-! SUPPORT. What the encoder's functions compute: `bitlen`, `enc_len` (40_encoder.md R90) and the form (R91) as numbers. -/

namespace Sys2Proof

theorem bitlen_le_iff (v : Value) (m : Nat) : bitlen v ≤ m ↔ v.toNat < 2 ^ m := by
  unfold bitlen
  split
  · rename_i h; subst h; simp
  · rename_i h
    have h0 : v.toNat ≠ 0 := fun e => h (BitVec.eq_of_toNat_eq (by simpa using e))
    rw [← Nat.log2_lt h0]; omega

namespace Machine

theorem encLen_range (v : Value) : 1 ≤ encLen v ∧ encLen v ≤ 9 := by
  simp only [encLen]; split <;> omega

/-- A class m in 1..8 is long enough for v exactly when v has at most 7m bits. -/
theorem encLen_le_class (v : Value) (m : Nat) (h1 : 1 ≤ m) (h8 : m ≤ 8) : encLen v ≤ m ↔ v.toNat < 2 ^ (7 * m) := by
  rw [← bitlen_le_iff]
  simp only [encLen]; split <;> omega

theorem lt_of_encLen (v : Value) (h : encLen v ≤ 8) : v.toNat < 2 ^ (7 * encLen v) :=
  (encLen_le_class v _ (encLen_range v).1 h).1 (Nat.le_refl _)

theorem encBytes_toNat_nine (v : Value) (h : encLen v = 9) : (encBytes v).toNat = v.toNat * 256 := by
  simp only [encBytes, h, if_true, BitVec.toNat_append]
  simp [Nat.shiftLeft_eq]

/-- A value of 7n bits with its marker fits n bytes. -/
theorem marked_lt (v n : Nat) (h1 : 1 ≤ n) (h : v < 2 ^ (7 * n)) : v * 2 ^ n + 2 ^ (n - 1) < 2 ^ (8 * n) := by
  have hm : 2 ^ (n - 1) < 2 ^ n := Nat.pow_lt_pow_right (by decide) (by omega)
  have e : 2 ^ (8 * n) = 2 ^ (7 * n) * 2 ^ n := by rw [← Nat.pow_add]; congr 1; omega
  have : v * 2 ^ n + 2 ^ n ≤ 2 ^ (7 * n) * 2 ^ n := by
    rw [← Nat.succ_mul]; exact Nat.mul_le_mul_right _ h
  omega

theorem encBytes_toNat (v : Value) (h : encLen v ≤ 8) :
    (encBytes v).toNat = v.toNat * 2 ^ encLen v + 2 ^ (encLen v - 1) := by
  have hlt := lt_of_encLen v h
  have h1 := (encLen_range v).1
  generalize hn : encLen v = n at *
  have hsum := marked_lt _ _ h1 hlt
  have hle : 2 ^ (8 * n) ≤ 2 ^ 64 := Nat.pow_le_pow_right (by decide) (by omega)
  have hm : 2 ^ (n - 1) < 2 ^ n := Nat.pow_lt_pow_right (by decide) (by omega)
  have hpos := Nat.two_pow_pos (n - 1)
  have h9 : n ≠ 9 := by omega
  have hone : (1 : Value).toNat = 1 := rfl
  simp only [encBytes, hn, h9, if_false, BitVec.toNat_setWidth, BitVec.toNat_or, BitVec.toNat_shiftLeft,
    Nat.shiftLeft_eq, hone]
  rw [Nat.mod_eq_of_lt (a := v.toNat * 2 ^ n) (by omega), Nat.one_mul,
    Nat.mod_eq_of_lt (a := 2 ^ (n - 1)) (by omega), Nat.mul_comm, ← Nat.two_pow_add_eq_or_of_lt hm, Nat.mul_comm,
    Nat.mod_eq_of_lt hsum, Nat.mod_eq_of_lt]
  omega

/-- The form of v fits in its own lanes. -/
theorem encBytes_lt (v : Value) : (encBytes v).toNat < 2 ^ (8 * encLen v) := by
  by_cases h : encLen v ≤ 8
  · rw [encBytes_toNat v h]; exact marked_lt _ _ (encLen_range v).1 (lt_of_encLen v h)
  · have h9 : encLen v = 9 := by have := (encLen_range v).2; omega
    rw [h9]; exact (encBytes v).isLt

/-- ENC replaces the encoder's register and nothing else. -/
theorem execEnc_eq (v : Value) (s : State) :
    execEnc v s = .next { s with encQ := ⟨true, BitVec.ofNat 4 (encLen v), encBytes v⟩ } := by
  rw [execEnc, loadEnc_eq]

end Machine

end Sys2Proof
end

