-- ==== Sys2Proof/Laws/Form.lean ====
section
/-! SUPPORT. What the form decoder and the encoder of forms do, said once for all nine classes (30_encoding.md R62 to R70,
R81): the bytes of a form read little-endian are the value above the marker. -/

namespace Sys2Proof

theorem append_toNat {k m : Nat} (a : BitVec k) (b : BitVec m) : (a ++ b).toNat = a.toNat * 2 ^ m + b.toNat := by
  rw [BitVec.toNat_append, ← Nat.shiftLeft_add_eq_or_of_lt b.isLt, Nat.shiftLeft_eq]

theorem class_cases {n : Nat} (h : 1 ≤ n ∧ n ≤ 9) :
    n = 1 ∨ n = 2 ∨ n = 3 ∨ n = 4 ∨ n = 5 ∨ n = 6 ∨ n = 7 ∨ n = 8 ∨ n = 9 := by omega

/-- The value of a form of class n at the head of a byte string (30_encoding.md R81, R70). -/
def formValue (n : Nat) (bs : List Byte) : Value :=
  if n = 9 then BitVec.ofNat 64 (le ((bs.drop 1).take 8)) else BitVec.ofNat 64 (le (bs.take n) / 2 ^ n)

/-- Enough bytes for the header's declared length: the form of that class, and the rest. -/
theorem decodeForm_whole (h : Byte) (t : List Byte) (hl : hdrLen h ≤ (h :: t).length) :
    decodeForm (h :: t) = .ok (classInstr (hdrLen h) (formValue (hdrLen h) (h :: t)), (h :: t).drop (hdrLen h)) := by
  have hr := hdrLen_range h
  have hc := headerClass_eq_hdrLen h
  generalize hdrLen h = n at *
  have hb0 := h.isLt
  rcases class_cases hr with rfl | rfl | rfl | rfl | rfl | rfl | rfl | rfl | rfl
  · simp only [decodeForm, hc, classInstr, formValue]
    refine congrArg Except.ok (Prod.ext (congrArg Instr.vi1 ?_) rfl)
    apply BitVec.eq_of_toNat_eq
    simp only [BitVec.toNat_setWidth, BitVec.extractLsb'_toNat, Nat.shiftRight_eq_div_pow]
    simp [le]; omega
  · match t, hl with
    | b1 :: t, _ =>
      simp only [decodeForm, hc, classInstr, formValue]
      refine congrArg Except.ok (Prod.ext (congrArg Instr.vi2 ?_) rfl)
      apply BitVec.eq_of_toNat_eq
      simp only [append_toNat, BitVec.toNat_setWidth, BitVec.extractLsb'_toNat, Nat.shiftRight_eq_div_pow]
      have := b1.isLt
      simp [le]; omega
  · match t, hl with
    | b1 :: b2 :: t, _ =>
      simp only [decodeForm, hc, classInstr, formValue]
      refine congrArg Except.ok (Prod.ext (congrArg Instr.vi3 ?_) rfl)
      apply BitVec.eq_of_toNat_eq
      simp only [append_toNat, BitVec.toNat_setWidth, BitVec.extractLsb'_toNat, Nat.shiftRight_eq_div_pow]
      have := b1.isLt; have := b2.isLt
      simp [le]; omega
  · match t, hl with
    | b1 :: b2 :: b3 :: t, _ =>
      simp only [decodeForm, hc, classInstr, formValue]
      refine congrArg Except.ok (Prod.ext (congrArg Instr.vi4 ?_) rfl)
      apply BitVec.eq_of_toNat_eq
      simp only [append_toNat, BitVec.toNat_setWidth, BitVec.extractLsb'_toNat, Nat.shiftRight_eq_div_pow]
      have := b1.isLt; have := b2.isLt; have := b3.isLt
      simp [le]; omega
  · match t, hl with
    | b1 :: b2 :: b3 :: b4 :: t, _ =>
      simp only [decodeForm, hc, classInstr, formValue]
      refine congrArg Except.ok (Prod.ext (congrArg Instr.vi5 ?_) rfl)
      apply BitVec.eq_of_toNat_eq
      simp only [append_toNat, BitVec.toNat_setWidth, BitVec.extractLsb'_toNat, Nat.shiftRight_eq_div_pow]
      have := b1.isLt; have := b2.isLt; have := b3.isLt; have := b4.isLt
      simp [le]; omega
  · match t, hl with
    | b1 :: b2 :: b3 :: b4 :: b5 :: t, _ =>
      simp only [decodeForm, hc, classInstr, formValue]
      refine congrArg Except.ok (Prod.ext (congrArg Instr.vi6 ?_) rfl)
      apply BitVec.eq_of_toNat_eq
      simp only [append_toNat, BitVec.toNat_setWidth, BitVec.extractLsb'_toNat, Nat.shiftRight_eq_div_pow]
      have := b1.isLt; have := b2.isLt; have := b3.isLt; have := b4.isLt
      have := b5.isLt
      simp [le]; omega
  · match t, hl with
    | b1 :: b2 :: b3 :: b4 :: b5 :: b6 :: t, _ =>
      simp only [decodeForm, hc, classInstr, formValue]
      refine congrArg Except.ok (Prod.ext (congrArg Instr.vi7 ?_) rfl)
      apply BitVec.eq_of_toNat_eq
      simp only [append_toNat, BitVec.toNat_setWidth, BitVec.extractLsb'_toNat, Nat.shiftRight_eq_div_pow]
      have := b1.isLt; have := b2.isLt; have := b3.isLt; have := b4.isLt
      have := b5.isLt; have := b6.isLt
      simp [le]; omega
  · match t, hl with
    | b1 :: b2 :: b3 :: b4 :: b5 :: b6 :: b7 :: t, _ =>
      simp only [decodeForm, hc, classInstr, formValue]
      refine congrArg Except.ok (Prod.ext (congrArg Instr.vi8 ?_) rfl)
      apply BitVec.eq_of_toNat_eq
      simp only [append_toNat, BitVec.toNat_setWidth]
      have := b1.isLt; have := b2.isLt; have := b3.isLt; have := b4.isLt
      have := b5.isLt; have := b6.isLt; have := b7.isLt
      simp [le]; omega
  · match t, hl with
    | b1 :: b2 :: b3 :: b4 :: b5 :: b6 :: b7 :: b8 :: t, _ =>
      simp only [decodeForm, hc, classInstr, formValue]
      refine congrArg Except.ok (Prod.ext (congrArg Instr.vi9 ?_) rfl)
      apply BitVec.eq_of_toNat_eq
      simp only [append_toNat]
      have := b1.isLt; have := b2.isLt; have := b3.isLt; have := b4.isLt
      have := b5.isLt; have := b6.isLt; have := b7.isLt; have := b8.isLt
      simp [le]; omega

/-- Fewer bytes than the header declares is truncated. -/
theorem decodeForm_short (h : Byte) (t : List Byte) (hl : (h :: t).length < hdrLen h) :
    decodeForm (h :: t) = .error (.truncated (hdrLen h)) := by
  have hr := hdrLen_range h
  have hc := headerClass_eq_hdrLen h
  generalize hdrLen h = n at *
  simp only [decodeForm, hc]
  split <;> simp_all <;> omega

/-- The bytes of a value its class holds: n of them, the value above the marker read little-endian. -/
theorem encode_classInstr (n : Nat) (v : Value) (hn : 1 ≤ n ∧ n ≤ 9) (hf : fitsClass n v = true) :
    ∃ bs, encode (classInstr n v) = .form bs ∧ bs.length = n ∧
      le bs = (if n = 9 then v.toNat * 256 else v.toNat * 2 ^ n + 2 ^ (n - 1)) := by
  have hv := v.isLt
  simp only [fitsClass, Config.classBits] at hf
  rcases class_cases hn with rfl | rfl | rfl | rfl | rfl | rfl | rfl | rfl | rfl <;>
  refine ⟨_, rfl, rfl, ?_⟩ <;>
  simp only [le, append_toNat, BitVec.extractLsb'_toNat, Nat.shiftRight_eq_div_pow] <;> simp at hf ⊢ <;> omega

/-- A byte string is fixed by its length and its little-endian number. -/
theorem bytes_eq_of_le {as bs : List Byte} (hl : as.length = bs.length) (h : le as = le bs) : as = bs := by
  induction as generalizing bs with
  | nil => cases bs with
    | nil => rfl
    | cons b bs => cases hl
  | cons a as ih => cases bs with
    | nil => cases hl
    | cons b bs =>
      have ha := a.isLt
      have hb := b.isLt
      simp only [le] at h
      have e : a = b := BitVec.eq_of_toNat_eq (by omega)
      rw [e, ih (by simpa using hl) (by omega)]

/-- Some instruction of a class is well-formed exactly when the class holds its value. -/
theorem classInstr_wellFormed (n : Nat) (v : Value) (hn : 1 ≤ n ∧ n ≤ 9) :
    (classInstr n v).wellFormed = fitsClass n v := by
  rcases class_cases hn with rfl | rfl | rfl | rfl | rfl | rfl | rfl | rfl | rfl <;> rfl

/-- The low bits of a window's lane 0 are those of its first n lanes. -/
theorem lane_zero_mod (w : Bus) (n : Nat) (hn : 1 ≤ n ∧ n ≤ 8) :
    (lane w 0).toNat % 2 ^ n = le (lanes w 0 n) % 2 ^ n := by
  rw [lane_toNat, le_lanes, Nat.mod_mod_of_dvd _ (Nat.pow_dvd_pow 2 (by omega)),
    Nat.mod_mod_of_dvd _ (Nat.pow_dvd_pow 2 (by omega))]

/-- A window whose first n lanes are a form of class n holding x declares n and has the value x. -/
theorem window_of_form (w : Bus) (n : Nat) (x : Value) (hn : 1 ≤ n ∧ n ≤ 9)
    (h : le (lanes w 0 n) = (if n = 9 then x.toNat * 256 else x.toNat * 2 ^ n + 2 ^ (n - 1))) :
    Machine.declaredLen w = n ∧ Machine.decValue w n = x := by
  rw [Machine.declaredLen_eq]
  by_cases h9 : n = 9
  · subst h9
    rw [if_pos rfl] at h
    refine ⟨?_, ?_⟩
    · rw [hdrLen_nine_iff]
      apply BitVec.eq_of_toNat_eq
      have := lane_toNat w 0
      have := le_lanes w 0 9
      simp at *; omega
    · apply BitVec.eq_of_toNat_eq
      rw [Machine.decValue_toNat_nine, Machine.memRead_eq]
      have := le_lanes w 0 9
      have := x.isLt
      simp at *; omega
  · rw [if_neg h9] at h
    have hm : 2 ^ (n - 1) < 2 ^ n := Nat.pow_lt_pow_right (by decide) (by omega)
    refine ⟨?_, ?_⟩
    · rw [hdrLen_eq_iff_marker _ n hn.1 (by omega), lane_zero_mod w n ⟨hn.1, by omega⟩, h,
        Nat.mul_comm, Nat.mul_add_mod, Nat.mod_eq_of_lt hm]
    · apply BitVec.eq_of_toNat_eq
      rw [Machine.decValue_toNat (by omega), Machine.memRead, h, Nat.mul_comm, Nat.mul_add_div (Nat.two_pow_pos n),
        Nat.div_eq_of_lt hm, Nat.add_zero]

/-- The first lanes of the bus ENC fills, read little-endian, are all of it. -/
theorem le_lanes_encBytes (v : Value) : le (lanes (Machine.encBytes v) 0 (Machine.encLen v)) =
    (if Machine.encLen v = 9 then v.toNat * 256 else v.toNat * 2 ^ Machine.encLen v + 2 ^ (Machine.encLen v - 1)) := by
  have hr := Machine.encLen_range v
  rw [le_lanes, Nat.mul_zero, Nat.pow_zero, Nat.div_one, Nat.mod_eq_of_lt (Machine.encBytes_lt v)]
  split
  · exact Machine.encBytes_toNat_nine v ‹_›
  · exact Machine.encBytes_toNat v (by omega)

end Sys2Proof
end

