-- ==== Sys2Proof/Laws/PerInstr.lean ====
section
/-! SUPPORT. What holds of every instruction as syntax: its encoding matches the mask, the match and the length of its own
row of opcode_table.json, whatever its operands are. -/

namespace Sys2Proof.Laws.EncodeMatchesRow

/-- The mask, match and length in bytes of an instruction's row of opcode_table.json; a request-select row has no length
there, written 0. -/
def row : Instr → Nat × Nat × Nat
  | .enc _ => (0x1, 0x1, 0)
  | .dec _ _ => (0x2, 0x2, 0)
  | .vi1 _ => (0x01, 0x01, 1)
  | .vi2 _ => (0x03, 0x02, 2)
  | .vi3 _ => (0x07, 0x04, 3)
  | .vi4 _ => (0x0F, 0x08, 4)
  | .vi5 _ => (0x1F, 0x10, 5)
  | .vi6 _ => (0x3F, 0x20, 6)
  | .vi7 _ => (0x7F, 0x40, 7)
  | .vi8 _ => (0xFF, 0x80, 8)
  | .vi9 _ => (0xFF, 0x00, 9)

/-- The encoding matches the row: the request-select vector, or the header byte and the number of bytes. -/
def matchesRow (e : Encoded) (r : Nat × Nat × Nat) : Prop :=
  match e with
  | .request select _ _ _ => select.toNat &&& r.1 = r.2.1 ∧ r.2.2 = 0
  | .form [] => False
  | .form (h :: t) => h.toNat &&& r.1 = r.2.1 ∧ (h :: t).length = r.2.2

/-- The encoding of the instruction matches its own row. -/
def Statement (i : Instr) : Prop := matchesRow (encode i) (row i)

theorem enc (v : Value) : Statement (.enc v) := ⟨(by decide : (0b01 : BitVec 2).toNat &&& 0x1 = 0x1), rfl⟩
theorem dec (bytes : Bus) (avail : Len) : Statement (.dec bytes avail) :=
  ⟨(by decide : (0b10 : BitVec 2).toNat &&& 0x2 = 0x2), rfl⟩

theorem vi1 (v : Value) : Statement (.vi1 v) :=
  ⟨(by decide : ∀ x : BitVec 7, (x ++ 0b1#1).toNat &&& 0x01 = 0x01) _, rfl⟩

theorem vi2 (v : Value) : Statement (.vi2 v) :=
  ⟨(by decide : ∀ x : BitVec 6, (x ++ 0b10#2).toNat &&& 0x03 = 0x02) _, rfl⟩

theorem vi3 (v : Value) : Statement (.vi3 v) :=
  ⟨(by decide : ∀ x : BitVec 5, (x ++ 0b100#3).toNat &&& 0x07 = 0x04) _, rfl⟩

theorem vi4 (v : Value) : Statement (.vi4 v) :=
  ⟨(by decide : ∀ x : BitVec 4, (x ++ 0b1000#4).toNat &&& 0x0F = 0x08) _, rfl⟩

theorem vi5 (v : Value) : Statement (.vi5 v) :=
  ⟨(by decide : ∀ x : BitVec 3, (x ++ 0b10000#5).toNat &&& 0x1F = 0x10) _, rfl⟩

theorem vi6 (v : Value) : Statement (.vi6 v) :=
  ⟨(by decide : ∀ x : BitVec 2, (x ++ 0b100000#6).toNat &&& 0x3F = 0x20) _, rfl⟩

theorem vi7 (v : Value) : Statement (.vi7 v) :=
  ⟨(by decide : ∀ x : BitVec 1, (x ++ 0b1000000#7).toNat &&& 0x7F = 0x40) _, rfl⟩

theorem vi8 (v : Value) : Statement (.vi8 v) := ⟨(by decide : (0x80 : Byte).toNat &&& 0xFF = 0x80), rfl⟩
theorem vi9 (v : Value) : Statement (.vi9 v) := ⟨(by decide : (0x00 : Byte).toNat &&& 0xFF = 0x00), rfl⟩

end Sys2Proof.Laws.EncodeMatchesRow
end

