-- ==== Sys2Proof/Laws/Step.lean ====
section
/-! SUPPORT. What one edge can do, said once: a reset edge, or each unit by the three cases of
70_reset_and_hazards.md R163. -/

namespace Sys2Proof.Machine

/-- The encoder's register after an edge that is no reset edge (R163). -/
def encAfter (p : Inputs) (ready : Bool) (q : EncQ) : EncQ :=
  if p.encReqValid && reqReady p.rst q.valid ready then ⟨true, BitVec.ofNat 4 (encLen p.encReqValue), encBytes p.encReqValue⟩
  else ⟨q.valid && !ready, q.len, q.bytes⟩

/-- The decoder's register after an edge that is no reset edge (R163). -/
def decAfter (p : Inputs) (ready : Bool) (q : DecQ) : DecQ :=
  if p.decReqValid && reqReady p.rst q.valid ready then decResponse p.decReqBytes p.decReqAvail
  else ⟨q.valid && !ready, q.err, q.len, q.need, q.value⟩

/-- A transfer edge answers a next state, each unit by its own case, the schedule untouched. -/
theorem transferEdge_eq (p : Inputs) (e d : Bool) (s : State) :
    transferEdge p e d s = .next ⟨encAfter p e s.encQ, decAfter p d s.decQ, s.inputs, s.draws⟩ := by
  cases he : (p.encReqValid && reqReady p.rst s.encQ.valid e) <;>
  cases hd : (p.decReqValid && reqReady p.rst s.decQ.valid d) <;>
  simp only [transferEdge, selectVector, he, hd, encAfter, decAfter, if_true, if_false, Bool.false_eq_true] <;>
  simp only [selectedInstrs, BitVec.ofBool, cond_true, cond_false] <;>
  simp [execAll, exec, execDec, execEnc_eq] <;>
  first
    | exact State.eq_of_fields (by simp [State.drainEnc_encQ]) (by simp [State.drainDec_decQ]) (by simp) (by simp)
    | simp [State.drainEnc_encQ]
    | simp [State.drainDec_decQ]

theorem step_reset {s : State} (h : s.sampled.rst = true) : step s = .next s.advance.loadReset := by
  simp [step, clockEdge, edge, h]

theorem step_transfer {s : State} {e d : Bool} (h : s.sampled.rst = false) (he : s.sampled.encRspReady = .level e)
    (hd : s.sampled.decRspReady = .level d) :
    step s = .next ⟨encAfter s.sampled e s.encQ, decAfter s.sampled d s.decQ, s.advance.inputs, s.advance.draws⟩ := by
  simp [step, clockEdge, edge, h, he, hd, transferEdge_eq]

/-- The cases of a step that answers a next state. -/
theorem step_cases {s t : State} (h : step s = .next t) :
    (s.sampled.rst = true ∧ t = s.advance.loadReset) ∨
    (∃ e d, s.sampled.rst = false ∧ s.sampled.encRspReady = .level e ∧ s.sampled.decRspReady = .level d ∧
      t = ⟨encAfter s.sampled e s.encQ, decAfter s.sampled d s.decQ, s.advance.inputs, s.advance.draws⟩) := by
  cases hr : s.sampled.rst with
  | true => rw [step_reset hr] at h; cases h; exact .inl ⟨rfl, rfl⟩
  | false =>
    cases he : s.sampled.encRspReady with
    | fromReqReady b => simp [step, clockEdge, edge, hr, he] at h
    | level e =>
      cases hd : s.sampled.decRspReady with
      | fromReqReady b => simp [step, clockEdge, edge, hr, he, hd] at h
      | level d =>
        rw [step_transfer hr he hd] at h; cases h
        exact .inr ⟨e, d, rfl, rfl, rfl, rfl⟩

/-- A run of k+1 edges is one edge and a run of k. -/
theorem run_succ {k : Nat} {s u : State} (h : Sys2Proof.core.run (k + 1) s = .next u) :
    ∃ t, step s = .next t ∧ Sys2Proof.core.run k t = .next u := by
  have hs : Sys2Proof.core.step s = step s := rfl
  cases hst : step s with
  | next t => exact ⟨t, rfl, by simpa only [Host.Core.run, hs.trans hst] using h⟩
  | fault f => simp only [Host.Core.run, hs.trans hst] at h; cases h
  | refused r => simp only [Host.Core.run, hs.trans hst] at h; cases h

theorem run_succ_of_step {k : Nat} {s t : State} (h : step s = .next t) :
    Sys2Proof.core.run (k + 1) s = Sys2Proof.core.run k t := by
  have hs : Sys2Proof.core.step s = .next t := h
  simp only [Host.Core.run, hs]

end Sys2Proof.Machine
end

