-- ==== Sys2Proof/Tests/Slice0.lean ====
section
/-! SUPPORT. The model's own tests. Expected results come from the spec: the encodings of 30_encoding.md written out, the
vectors E, V, T and the traces P of 95_test_vectors.md. At the end, a witness for the hypotheses of every statement. -/

namespace Sys2Proof.Tests

open Sys2Proof.Machine

/-- The next state, where there is one. -/
def next? : Host.Outcome State Fault Refusal → Option State
  | .next t => some t
  | .fault _ => none
  | .refused _ => none

/-- The encoder's response in the notation of 30_encoding.md R79. -/
def encReport (o : Host.Outcome State Fault Refusal) : Option Report := (next? o).map (·.encQ.report)

/-- The decoder's response in the notation of 30_encoding.md R79. -/
def decReport (o : Host.Outcome State Fault Refusal) : Option Report := (next? o).map (·.decQ.report)

/-- The response a DEC line gets. -/
def decLine (bs : List Byte) (avail : Option Len) : Option Report := decReport (exec (Line.instr (.dec bs avail)) State.reset)

/-! ## WellFormed refuses a value its class does not hold (30_encoding.md R81) -/

theorem test_vi1_too_large : (Instr.vi1 128).wellFormed = false := by decide
theorem test_vi2_too_large : (Instr.vi2 16384).wellFormed = false := by decide
theorem test_vi3_too_large : (Instr.vi3 2097152).wellFormed = false := by decide
theorem test_vi4_too_large : (Instr.vi4 268435456).wellFormed = false := by decide
theorem test_vi5_too_large : (Instr.vi5 34359738368).wellFormed = false := by decide
theorem test_vi6_too_large : (Instr.vi6 4398046511104).wellFormed = false := by decide
theorem test_vi7_too_large : (Instr.vi7 562949953421312).wellFormed = false := by decide
theorem test_vi8_too_large : (Instr.vi8 72057594037927936).wellFormed = false := by decide
theorem test_line_of_no_bytes : (Line.dec [] none).wellFormed = false := by decide
theorem test_line_of_ten_bytes : (Line.dec (List.replicate 10 0) none).wellFormed = false := by decide

/-! ## Decoding: words written out from 30_encoding.md R61 to R71 -/

theorem test_decode_enc : decode (.request 0b01 300 0 0) = .ok (.enc 300) := by decide
theorem test_decode_dec : decode (.request 0b10 0 0x0004b2 2) = .ok (.dec 0x0004b2 2) := by decide
theorem test_decode_vi1 : decode (.form [0b01111111]) = .ok (.vi1 63) := by decide
theorem test_decode_vi2 : decode (.form [0b10110010, 0b00000100]) = .ok (.vi2 300) := by decide
theorem test_decode_vi3 : decode (.form [0b11111100, 0xff, 0x7f]) = .ok (.vi3 1048575) := by decide
theorem test_decode_vi4 : decode (.form [0b00001000, 0x00, 0x00, 0x02]) = .ok (.vi4 2097152) := by decide
theorem test_decode_vi5 : decode (.form [0b11110000, 0xdd, 0xb7, 0xd5, 0x1b]) = .ok (.vi5 0xdeadbeef) := by decide
theorem test_decode_vi6 : decode (.form [0b00100000, 0x00, 0x00, 0x00, 0x00, 0x02]) = .ok (.vi6 34359738368) := by decide
theorem test_decode_vi7 :
    decode (.form [0b01000000, 0x00, 0x00, 0x00, 0x00, 0x00, 0x02]) = .ok (.vi7 4398046511104) := by decide
theorem test_decode_vi8 :
    decode (.form [0b10000000, 0x00, 0x00, 0x00, 0x00, 0x00, 0x00, 0x02]) = .ok (.vi8 562949953421312) := by decide
theorem test_decode_vi9 :
    decode (.form [0b00000000, 0xef, 0xcd, 0xab, 0x89, 0x67, 0x45, 0x23, 0x01]) = .ok (.vi9 0x0123456789abcdef) := by
  decide

theorem test_decode_no_request : decode (.request 0b00 300 0 0) = .error .noRequest := by decide
theorem test_decode_two_requests : decode (.request 0b11 300 0 0) = .error .twoRequests := by decide
theorem test_decode_truncated : decode (.form [0x04, 0x00]) = .error (.truncated 3) := by decide
theorem test_decode_trailing : decode (.form [0x01, 0xab]) = .error .trailingBytes := by decide

/-- 95_test_vectors.md section 3.1. -/
theorem test_header_classification :
    [(0x00 : Byte), 0x01, 0x02, 0x03, 0x04, 0x08, 0x10, 0x20, 0x40, 0x80, 0xA0, 0xC0, 0xF0, 0xFE, 0xFF].map hdrLen =
      [9, 1, 2, 1, 3, 4, 5, 6, 7, 8, 6, 7, 5, 2, 1] := by decide

/-! ## ENC: vectors E7, E12, E27, E28, E32 of 95_test_vectors.md -/

theorem test_enc_300 : encReport (exec (.enc 300) State.reset) = some (.form 2 [0xb2, 0x04]) := by decide
theorem test_enc_top_of_class_8 : (encLen 0xffffffffffffff, encBytes 0xffffffffffffff) = (8, 0x00ffffffffffffff80) := by
  decide
theorem test_enc_bottom_of_class_9 :
    (encLen 0x100000000000000, encBytes 0x100000000000000) = (9, 0x010000000000000000) := by decide

/-! ## DEC: vectors V2, V5, V7, V11, V14, V15, V28 of 95_test_vectors.md -/

theorem test_dec_all_ones_header : decLine [0xff] none = some (.ok 127 1) := by decide
theorem test_dec_surplus_bytes : decLine [0xb2, 0x04, 0xff, 0xff] none = some (.ok 300 2) := by decide
theorem test_dec_nothing_available : decLine [0xb2, 0x04] (some 0) = some (.truncated 0) := by decide
theorem test_dec_class_8_truncated :
    decLine [0x80, 0xff, 0xff, 0xff, 0xff, 0xff, 0xff] none = some (.truncated 8) := by decide
theorem test_dec_fifteen_available :
    decLine [0x00, 0xff, 0xff, 0xff, 0xff, 0xff, 0xff, 0xff, 0xff] (some 15) = some (.ok 0xffffffffffffffff 9) := by
  decide
theorem test_dec_overlong : decLine [0x02, 0x00] none = some (.ok 0 2) := by decide
theorem test_dec_lane_beyond_avail : decLine [0x03, 0x07] (some 1) = some (.ok 1 1) := by decide

/-! ## The classes, each on the largest value its class holds (40_encoder.md R94) -/

theorem test_vi1 : decReport (exec (.vi1 127) State.reset) = some (.ok 127 1) := by decide
theorem test_vi2 : decReport (exec (.vi2 16383) State.reset) = some (.ok 16383 2) := by decide
theorem test_vi3 : decReport (exec (.vi3 2097151) State.reset) = some (.ok 2097151 3) := by decide
theorem test_vi4 : decReport (exec (.vi4 268435455) State.reset) = some (.ok 268435455 4) := by decide
theorem test_vi5 : decReport (exec (.vi5 34359738367) State.reset) = some (.ok 34359738367 5) := by decide
theorem test_vi6 : decReport (exec (.vi6 4398046511103) State.reset) = some (.ok 4398046511103 6) := by decide
theorem test_vi7 : decReport (exec (.vi7 562949953421311) State.reset) = some (.ok 562949953421311 7) := by decide
theorem test_vi8 : decReport (exec (.vi8 72057594037927935) State.reset) = some (.ok 72057594037927935 8) := by decide
theorem test_vi9 :
    decReport (exec (.vi9 18446744073709551615) State.reset) = some (.ok 18446744073709551615 9) := by decide

/-! ## Table words -/

theorem test_table_word_enc : decodeTableWord 8 0x01 = some (.enc 0) := by decide
theorem test_table_word_dec : decodeTableWord 8 0x02 = some (.dec 0 0) := by decide
theorem test_table_word_vi2 : decodeTableWord 16 0x04b2 = some (.vi2 300) := by decide
theorem test_table_word_vi9 : decodeTableWord 8 0x00 = some (.vi9 0) := by decide
theorem test_step_of_table_word :
    decReport (step (State.reset.withFetchWord 16 0x04b2)) = some (.ok 300 2) := by decide

/-! ## Edges: 95_test_vectors.md section 4 (the trace of P4) -/

/-- The state with `03` held in `enc_q` and the pins of the next edge (the state before cycle 2 of the trace). -/
def held03 (p : Inputs) : State := { State.reset with encQ := ⟨true, 1, 0x03⟩, inputs := [p] }

/-- Encoder pins of the trace: `rst`, `enc_req_valid`, `enc_req_value`, `enc_rsp_ready`. -/
def encPins (rst valid : Bool) (v : Value) (ready : Bool) : Inputs :=
  ⟨rst, valid, v, .level ready, false, 0, 0, .level true⟩

/-- Cycle 2: back-pressure. -/
theorem test_edge_back_pressure :
    (next? (step (held03 (encPins false true 2 false)))).map (·.encQ) = some ⟨true, 1, 0x03⟩ := by decide

/-- Cycle 4: the response leaves as the next request is taken. -/
theorem test_edge_response_and_request :
    (next? (step (held03 (encPins false true 2 true)))).map (·.encQ) = some ⟨true, 1, 0x05⟩ := by decide

/-- Cycle 5: a response transfer keeps the data fields. -/
theorem test_edge_response_only :
    (next? (step (held03 (encPins false false 0 true)))).map (·.encQ) = some ⟨false, 1, 0x03⟩ := by decide

/-- Cycle 7: reset loses the held response and the offered request. -/
theorem test_edge_reset : (next? (step (held03 (encPins true true 5 true)))).map (·.encQ) = some ⟨false, 0, 0⟩ := by decide

/-- Cycles 2 and 4: `enc_req_ready` follows `enc_rsp_ready` while a response is held. -/
theorem test_req_ready :
    ((held03 idleInputs).outputs false false true).encReqReady = false ∧
    ((held03 idleInputs).outputs false true true).encReqReady = true ∧
    ((held03 idleInputs).outputs true true true).encReqReady = false := by decide

/-- P1, cycle 2: ENC's response leaves as DEC takes the bytes it held. -/
theorem test_edge_both_units :
    next? (step { State.reset with
      encQ := ⟨true, 2, 0x04b2⟩
      inputs := [⟨false, false, 0, .level true, true, 0x04b2, 2, .level true⟩] }) =
    some ⟨⟨false, 2, 0x04b2⟩, ⟨true, false, 2, 2, 300⟩, [], 0⟩ := by decide

/-- A loop from `req_ready` to `rsp_ready` is refused by name (70_reset_and_hazards.md R171). -/
theorem test_edge_loop_refused :
    step { State.reset with inputs := [{ idleInputs with decRspReady := .fromReqReady true }] } =
      .refused (.combinationalLoop .decoder) := rfl

/-- P2 of 95_test_vectors.md: the stream loop. -/
theorem test_dec_stream :
    decStream [0x0b, 0xb2, 0x04, 0x00, 0x00, 0x00, 0x00, 0x00, 0x00, 0x00, 0x00, 0x01, 0x01, 0x04, 0x00] =
      ⟨[5, 300, 72057594037927936, 0], 13, true⟩ := by decide

/-! ## Witnesses: a concrete state and operands that meet the hypotheses of each statement -/

/-- The state after ENC of v at reset, with nothing scheduled. -/
def afterEnc (v : Value) : State := { State.reset with encQ := ⟨true, BitVec.ofNat 4 (encLen v), encBytes v⟩ }

/-- The state after DEC of a window at reset. -/
def afterDec (w : Bus) (a : Len) : State := { State.reset with decQ := decResponse w a }

theorem exec_enc_reset (v : Value) : exec (.enc v) State.reset = .next (afterEnc v) := execEnc_eq v State.reset

theorem exec_dec_reset (w : Bus) (a : Len) : exec (.dec w a) State.reset = .next (afterDec w a) := rfl

theorem witness_DecodeOfEncodeIsTheInstruction :
    (Instr.enc 300).wellFormed = true ∧ (Instr.dec 0x04b2 2).wellFormed = true ∧ (Instr.vi1 127).wellFormed = true ∧
    (Instr.vi8 72057594037927935).wellFormed = true ∧ (Instr.vi9 18446744073709551615).wellFormed = true := by decide

theorem witness_EncodeOfDecodedFormIsTheBytes : decode (.form [0xb2, 0x04]) = .ok (.vi2 300) := by decide

theorem witness_FormLengthIsKnownFromTheHeader :
    hdrLen 0x04 ≤ [(0x04 : Byte), 0x00, 0x02].length ∧ [(0x04 : Byte), 0x00].length < hdrLen 0x04 := by decide

theorem witness_MemReadAfterMemWrite : 1 + 8 ≤ 9 ∧ (0 < 1 ∨ 1 + 8 ≤ 0) := by decide

theorem witness_EncLenIsTheSmallestFittingClass : encLen 128 = 2 ∧ encLen 0x100000000000000 = 9 := by decide

theorem witness_EncLoadsTheFormAndNothingElse : encLen 0x100000000000000 = 9 ∧ encLen 0xffffffffffffff = 8 ∧ encLen 0 ≤ 1 := by
  decide

theorem witness_EncFormIsShortestAndMonotone :
    exec (.enc 127) State.reset = .next (afterEnc 127) ∧ exec (.enc 128) State.reset = .next (afterEnc 128) ∧
    (127 : Value).toNat ≤ (128 : Value).toNat ∧ 1 < (afterEnc 128).encQ.len.toNat :=
  ⟨exec_enc_reset _, exec_enc_reset _, by decide, by decide⟩

theorem witness_EncIsDeterministicAndInjective :
    exec (.enc 127) State.reset = .next (afterEnc 127) ∧ exec (.enc 128) State.reset = .next (afterEnc 128) :=
  ⟨exec_enc_reset _, exec_enc_reset _⟩

theorem witness_EncFormHasItsClassLayout : exec (.enc 300) State.reset = .next (afterEnc 300) := exec_enc_reset _

theorem witness_DecLoadsTheResponseAndNothingElse :
    min (0 : Len).toNat 9 = 0 ∧
    (1 ≤ min (1 : Len).toNat 9 ∧ min (1 : Len).toNat 9 < hdrLen (lane 0x04b2 0)) ∧
    (hdrLen (lane 0x04b2 0) ≤ min (2 : Len).toNat 9 ∧ hdrLen (lane 0x04b2 0) ≤ 8) ∧
    (hdrLen (lane 0 0) ≤ min (15 : Len).toNat 9 ∧ hdrLen (lane 0 0) = 9) := by decide

theorem witness_TruncatedResponseFields :
    (0 : Len).toNat = 0 ∧ (min (8 : Len).toNat 9 < hdrLen (lane 0 0) ∧ 1 ≤ (8 : Len).toNat) := by decide

theorem witness_DecOfEncIsTheValue :
    exec (.enc 300) State.reset = .next (afterEnc 300) ∧
    (∀ i, i < encLen 300 → lane 0xffff04b2 i = lane (afterEnc 300).encQ.bytes i) ∧ encLen 300 ≤ (2 : Len).toNat :=
  ⟨exec_enc_reset _, by decide, by decide⟩

theorem witness_DecOfAPrefixIsTruncated :
    exec (.enc 300) State.reset = .next (afterEnc 300) ∧
    (∀ i, i < (1 : Len).toNat → lane 0xffb2 i = lane (afterEnc 300).encQ.bytes i) ∧ (1 : Len).toNat < encLen 300 ∧
    (0 : Len).toNat < encLen 300 :=
  ⟨exec_enc_reset _, by decide, by decide, by decide⟩

theorem witness_OverlongFormsDecode :
    fitsClass 2 0 = true ∧ encode (classInstr 2 0) = .form [0x02, 0x00] ∧ lanes 0xab0002 0 2 = [0x02, 0x00] ∧
    2 ≤ (3 : Len).toNat := by decide

theorem witness_LanesWithNoEffectOnTheResponse :
    (exec (.dec 0x04b2 0) State.reset = .next (afterDec 0x04b2 0) ∧ 0 = min (0 : Len).toNat 9) ∧
    (exec (.dec 0x04b2 1) State.reset = .next (afterDec 0x04b2 1) ∧ 1 ≤ min (1 : Len).toNat 9 ∧
      min (1 : Len).toNat 9 < hdrLen (lane 0x04b2 0) ∧ lane 0xffb2 0 = lane 0x04b2 0) ∧
    (exec (.dec 0x04b2 2) State.reset = .next (afterDec 0x04b2 2) ∧ hdrLen (lane 0x04b2 0) ≤ min (2 : Len).toNat 9 ∧
      ∀ i, i < hdrLen (lane 0x04b2 0) → lane 0xff04b2 i = lane 0x04b2 i) :=
  ⟨⟨exec_dec_reset _ _, by decide⟩, ⟨exec_dec_reset _ _, by decide, by decide, by decide⟩,
    exec_dec_reset _ _, by decide, by decide⟩

theorem witness_NineOrMoreAvailableAreTheSame : 9 ≤ (9 : Len).toNat ∧ 9 ≤ (15 : Len).toNat := by decide

theorem witness_CursorMovesByTheBytesConsumed :
    (exec (.dec 0x04b2 1) State.reset = .next (afterDec 0x04b2 1) ∧ (afterDec 0x04b2 1).decQ.err = true) ∧
    (exec (.dec 0x04b2 2) State.reset = .next (afterDec 0x04b2 2) ∧ (afterDec 0x04b2 2).decQ.err = false) :=
  ⟨⟨exec_dec_reset _ _, by decide⟩, exec_dec_reset _ _, by decide⟩

theorem witness_ClassFormsLoadTheirValue :
    (127 : Value).toNat < 2 ^ 7 ∧ (16383 : Value).toNat < 2 ^ 14 ∧ (2097151 : Value).toNat < 2 ^ 21 ∧
    (268435455 : Value).toNat < 2 ^ 28 ∧ (34359738367 : Value).toNat < 2 ^ 35 ∧
    (4398046511103 : Value).toNat < 2 ^ 42 ∧ (562949953421311 : Value).toNat < 2 ^ 49 ∧
    (72057594037927935 : Value).toNat < 2 ^ 56 := by decide

theorem witness_DecRunsTheClassOfItsWindow :
    decodeForm (lanes 0xff04b2 0 (min (3 : Len).toNat 9)) = .ok (.vi2 300, [0xff]) := by decide

/-- A reset edge with a request offered and a response held. -/
theorem witness_ResetEdgeLoadsTheResetValues : (held03 (encPins true true 5 true)).sampled.rst = true := by decide

/-- A state with both units holding responses and both channels offering requests. -/
def busy (e d : Bool) : State :=
  ⟨⟨true, 1, 0x03⟩, ⟨true, true, 0, 3, 0⟩, [⟨false, true, 300, .level e, true, 0x04b2, 2, .level d⟩], 0⟩

/-- A state with a Truncated held in `dec_q` and idle pins. -/
def heldDec : State := { State.reset with decQ := ⟨true, true, 0, 3, 0⟩, inputs := [idleInputs] }

theorem witness_EachUnitStepsByItsCycleRule :
    (held03 (encPins true true 5 true)).sampled.rst = true ∧
    ((busy true false).sampled.rst = false ∧ (busy true false).sampled.encRspReady = .level true ∧
      (busy true false).sampled.decRspReady = .level false) ∧
    ((held03 (encPins false false 0 true)).sampled.rst = false ∧
      (held03 (encPins false false 0 true)).sampled.encRspReady = .level true ∧
      (held03 (encPins false false 0 true)).sampled.encReqValid = false ∧
      (held03 (encPins false false 0 true)).encQ.valid = true) ∧
    (heldDec.sampled.rst = false ∧ heldDec.sampled.encRspReady = .level true ∧
      heldDec.sampled.decRspReady = .level true ∧ heldDec.sampled.decReqValid = false ∧ heldDec.decQ.valid = true ∧
      heldDec.encQ.valid = false) := by decide

theorem witness_StepRunsTheSelectedInstructions :
    (selectVector (busy true false).sampled true false (busy true false) = 0b01 ∧
      decode (.request 0b01 300 0x04b2 2) = .ok (.enc 300)) ∧
    (selectVector (busy false true).sampled false true (busy false true) = 0b10 ∧
      decode (.request 0b10 300 0x04b2 2) = .ok (.dec 0x04b2 2)) ∧
    selectVector (busy false false).sampled false false (busy false false) = 0b00 ∧
    selectVector (busy true true).sampled true true (busy true true) = 0b11 := by decide

theorem witness_StepRunsTheClassOfThePresentedForm :
    (busy false true).sampled.rst = false ∧ (busy false true).sampled.encRspReady = .level false ∧
    (busy false true).sampled.decRspReady = .level true ∧
    selectVector (busy false true).sampled false true (busy false true) = 0b10 ∧
    decodeForm (lanes (busy false true).sampled.decReqBytes 0 (min (busy false true).sampled.decReqAvail.toNat 9)) =
      .ok (.vi2 300, []) := by decide

theorem witness_StepRunsTheFetchedTableWord :
    decodeTableWord 8 0x01 = some (.enc 0) ∧ decodeTableWord 8 0x02 = some (.dec 0 0) ∧
    decodeTableWord 16 0x04b2 = some (.vi2 300) ∧ decodeTableWord 72 0 = some (.vi9 0) := by decide

theorem witness_AHeldResponseDoesNotChange :
    (busy false false).sampled.rst = false ∧ next? (step (busy false false)) = some { busy false false with inputs := [] } ∧
    (busy false false).encQ.valid = true ∧ (busy false false).sampled.encRspReady = .level false ∧
    (busy false false).decQ.valid = true ∧ (busy false false).sampled.decRspReady = .level false := by decide

theorem witness_RequestFieldsMatterOnlyAtTheirTransfer :
    State.encRequest (busy false false) = [] ∧ State.decRequest (busy false false) = [] := by decide

theorem witness_UnitsAreIndependent :
    ((next? (step (busy true false))).isSome = true ∧ (next? (step (busy false false))).isSome = true ∧
      (busy true false).sampled.rst = (busy false false).sampled.rst ∧ (busy true false).decQ = (busy false false).decQ ∧
      (busy true false).sampled.decReqValid = (busy false false).sampled.decReqValid ∧
      (busy true false).sampled.decReqBytes = (busy false false).sampled.decReqBytes ∧
      (busy true false).sampled.decReqAvail = (busy false false).sampled.decReqAvail ∧
      (busy true false).sampled.decRspReady = (busy false false).sampled.decRspReady) ∧
    ((next? (step (busy false true))).isSome = true ∧
      (busy false true).sampled.rst = (busy false false).sampled.rst ∧ (busy false true).encQ = (busy false false).encQ ∧
      (busy false true).sampled.encReqValid = (busy false false).sampled.encReqValid ∧
      (busy false true).sampled.encReqValue = (busy false false).sampled.encReqValue ∧
      (busy false true).sampled.encRspReady = (busy false false).sampled.encRspReady) := by decide

theorem witness_StepStopsOnlyOnACombinationalLoop :
    (busy true true).noLoop = true ∧
    State.noLoop { State.reset with inputs := [{ idleInputs with encRspReady := .fromReqReady false }] } = false ∧
    (State.sampled { State.reset with inputs := [{ idleInputs with encRspReady := .fromReqReady false }] }).rst = false := by
  decide

theorem witness_OneOperationPerCycleAtOneCycleLatency :
    (busy true true).sampled.rst = false ∧ (busy true true).sampled.encRspReady = .level true ∧
    (busy true true).sampled.decRspReady = .level true ∧ (busy true true).sampled.encReqValid = true ∧
    (busy true true).sampled.decReqValid = true ∧
    (State.sampled { State.reset with inputs := [idleInputs] }).encReqValid = false := by decide

/-- One edge of a run that takes a request and delivers a response on both units. -/
theorem witness_UnitsAnswerEachRequestOnceInOrder :
    (next? (Sys2Proof.core.run 1 (busy true true))).isSome = true ∧ noResetOver 1 (busy true true) = true ∧
    eventsOver State.encDelivery 1 (busy true true) = [(1, 0x03)] ∧
    eventsOver State.encRequest 1 (busy true true) = [300] ∧
    eventsOver State.decDelivery 1 (busy true true) = [⟨true, true, 0, 3, 0⟩] ∧
    eventsOver State.decRequest 1 (busy true true) = [(0x04b2, 2)] := by decide

/-- A state with both responses held that meets the invariant, and its step. -/
theorem witness_EveryStepKeepsTheResponseInvariant :
    (busy true true).Inv ∧ (next? (step (busy true true))).isSome = true := by
  refine ⟨⟨⟨by decide, fun _ => ⟨1, by decide, by decide⟩⟩, by decide, by decide, fun _ h => ?_, fun _ _ => by decide⟩,
    by decide⟩
  cases h

theorem witness_OneResetEdgeMakesTheBlockReady : (held03 (encPins true true 5 true)).sampled.rst = true := by decide

theorem witness_RoundTripThroughBothUnitsInThreeCycles :
    State.inputs { State.powerUp with inputs := resetInputs :: (roundTripLines 300).map Line.inputs ++ [] } =
      resetInputs :: (roundTripLines 300).map Line.inputs ++ [] := rfl

theorem witness_DecStreamStopsAtACutForm : 1 ≤ 1 ∧ 1 < encLen 300 := by decide

end Sys2Proof.Tests
end

section
/-! Proofs about lane writes read back (00_scope.md R9). -/

namespace Sys2Proof.Machine

/-- The lowest lane that `MemWrite` writes holds the low byte of the value. -/
theorem lane_memWrite_first (bus : Bus) (i n v : Nat) (h : i + (n + 1) ≤ 9) :
    lane (memWrite bus i (n + 1) v) i = BitVec.ofNat 8 v := by
  rw [lane_memWrite _ _ _ _ _ h (by omega), if_pos (by omega)]
  simp

/-- `MemWrite` leaves every lane outside i..i+n-1. -/
theorem lane_memWrite_outside (bus : Bus) (i n v j : Nat) (h : i + n ≤ 9) (hj : j < 9) (hout : j < i ∨ i + n ≤ j) :
    lane (memWrite bus i n v) j = lane bus j := by
  rw [lane_memWrite _ _ _ _ _ h hj, if_neg (by omega)]

/-- `MemRead` of one lane more is that lane's byte below the read of the lanes above it. -/
theorem memRead_succ (bus : Bus) (i n : Nat) :
    memRead bus i (n + 1) = (lane bus i).toNat + 256 * memRead bus (i + 1) n := rfl

/-- By induction on the lanes written: the lowest gives the low byte of v, the lanes above it give `v / 256`. -/
theorem memRead_memWrite_same (bus : Bus) (i n v : Nat) (h : i + n ≤ 9) :
    memRead (memWrite bus i n v) i n = v % 2 ^ (8 * n) := by
  induction n generalizing bus i v with
  | zero => simp [memRead, lanes, le, Nat.mod_one]
  | succ n ih =>
    have hrest : memRead (memWrite bus i (n + 1) v) (i + 1) n = v / 256 % 2 ^ (8 * n) := ih _ _ _ (by omega)
    rw [memRead_succ, lane_memWrite_first _ _ _ _ h, hrest, BitVec.toNat_ofNat, pow_eight_succ, Nat.mod_mul]; rfl

end Sys2Proof.Machine

namespace Sys2Proof.Proofs

open Sys2Proof.Machine

/-- Settles O7: the read by induction on the lanes written, the other lanes by what `MemWrite` leaves in each lane. -/
theorem memReadAfterMemWrite : Obligations.MemReadAfterMemWrite := by
  intro bus i n v h
  exact ⟨memRead_memWrite_same bus i n v h, fun j hj hout => lane_memWrite_outside bus i n v j h hj hout⟩

end Sys2Proof.Proofs
end

section
/-! Proofs about the response registers: what a request leaves in them, their reset values (10_state.md R25, R28), and the
pins that show them (R23, R24). -/

namespace Sys2Proof.Machine

/-! ## A request's transfer and the register it writes (R25) -/

/-- What an ENC request leaves in `enc_q` does not mention the state before. -/
theorem exec_enc_eq (v : Value) (s : State) :
    exec (.enc v) s = .next { s with encQ := ⟨true, BitVec.ofNat 4 (encLen v), encBytes v⟩ } := execEnc_eq v s

theorem exec_dec_eq (bytes : Bus) (avail : Len) (s : State) :
    exec (.dec bytes avail) s = .next (s.loadDec (decResponse bytes avail)) := rfl

/-! ## The fields of the registers after reset (R28) -/

@[simp] theorem EncQ.reset_valid : EncQ.reset.valid = false := rfl
@[simp] theorem EncQ.reset_len : EncQ.reset.len = 0 := rfl
@[simp] theorem EncQ.reset_bytes : EncQ.reset.bytes = 0 := rfl
@[simp] theorem DecQ.reset_valid : DecQ.reset.valid = false := rfl
@[simp] theorem DecQ.reset_err : DecQ.reset.err = false := rfl
@[simp] theorem DecQ.reset_len : DecQ.reset.len = 0 := rfl
@[simp] theorem DecQ.reset_need : DecQ.reset.need = 0 := rfl
@[simp] theorem DecQ.reset_value : DecQ.reset.value = 0 := rfl
@[simp] theorem State.reset_encQ : State.reset.encQ = EncQ.reset := rfl
@[simp] theorem State.reset_decQ : State.reset.decQ = DecQ.reset := rfl

/-! ## The handshake under reset and on an empty register (70_reset_and_hazards.md R160, R165) -/

/-- No unit is ready while `rst` is 1. -/
@[simp] theorem reqReady_rst (valid rspReady : Bool) : reqReady true valid rspReady = false := rfl

/-- A unit that holds no response is ready whatever its `rsp_ready` is. -/
@[simp] theorem reqReady_empty (rspReady : Bool) : reqReady false false rspReady = true := rfl

section ResetEdge

variable {s : State} (h : s.sampled.rst = true)
include h

theorem State.encRequest_of_rst : s.encRequest = [] := by simp [State.encRequest, h]
theorem State.decRequest_of_rst : s.decRequest = [] := by simp [State.decRequest, h]
theorem State.encDelivery_of_rst : s.encDelivery = [] := by simp [State.encDelivery, h]
theorem State.decDelivery_of_rst : s.decDelivery = [] := by simp [State.decDelivery, h]

end ResetEdge

/-! ## The output pins (10_state.md R23, R24; 70_reset_and_hazards.md R164) -/

section OutputPins

variable (s : State) (rst e d : Bool)

@[simp] theorem State.outputs_encReqReady : (s.outputs rst e d).encReqReady = reqReady rst s.encQ.valid e := rfl
@[simp] theorem State.outputs_encRspValid : (s.outputs rst e d).encRspValid = s.encQ.valid := rfl
@[simp] theorem State.outputs_encRspLen : (s.outputs rst e d).encRspLen = s.encQ.len := rfl
@[simp] theorem State.outputs_encRspBytes : (s.outputs rst e d).encRspBytes = s.encQ.bytes := rfl
@[simp] theorem State.outputs_decReqReady : (s.outputs rst e d).decReqReady = reqReady rst s.decQ.valid d := rfl
@[simp] theorem State.outputs_decRspValid : (s.outputs rst e d).decRspValid = s.decQ.valid := rfl
@[simp] theorem State.outputs_decRspErr : (s.outputs rst e d).decRspErr = s.decQ.err := rfl
@[simp] theorem State.outputs_decRspLen : (s.outputs rst e d).decRspLen = s.decQ.len := rfl
@[simp] theorem State.outputs_decRspNeed : (s.outputs rst e d).decRspNeed = s.decQ.need := rfl
@[simp] theorem State.outputs_decRspValue : (s.outputs rst e d).decRspValue = s.decQ.value := rfl

end OutputPins

/-! ## The invariant of the registers at reset (30_encoding.md R76) -/

/-- An encoder's register that holds no response meets its invariant by its length alone. -/
theorem EncQ.inv_of_empty {q : EncQ} (hv : q.valid = false) (hl : q.len.toNat ≤ 9) : q.Inv :=
  ⟨hl, fun h => by simp [hv] at h⟩

/-- A decoder's register that holds no response meets its invariant by its `len` and `need` alone. -/
theorem DecQ.inv_of_empty {q : DecQ} (hv : q.valid = false) (hl : q.len.toNat ≤ 9) (hn : q.need.toNat ≤ 9) : q.Inv :=
  ⟨hl, hn, fun h => by simp [hv] at h, fun h => by simp [hv] at h⟩

theorem EncQ.reset_inv : EncQ.reset.Inv := EncQ.inv_of_empty rfl (by decide)

theorem DecQ.reset_inv : DecQ.reset.Inv := DecQ.inv_of_empty rfl (by decide) (by decide)

/-- The reset load gives the invariant from any state, power-up included (10_state.md R29). -/
theorem State.loadReset_inv (s : State) : s.loadReset.Inv := ⟨EncQ.reset_inv, DecQ.reset_inv⟩

end Sys2Proof.Machine

namespace Sys2Proof.Proofs

open Sys2Proof.Machine

/-- Settles O22: both runs end in the same register value, which is written in the request's fields only. -/
theorem responseIsAFunctionOfTheRequest : Obligations.ResponseIsAFunctionOfTheRequest :=
  ⟨fun v s u => ⟨_, _, exec_enc_eq v s, exec_enc_eq v u, rfl⟩,
    fun w a s u => ⟨_, _, exec_dec_eq w a s, exec_dec_eq w a u, rfl⟩⟩

/-- Settles O26. -/
theorem resetStateHoldsTheResetValues : Obligations.ResetStateHoldsTheResetValues := by
  simp [Obligations.ResetStateHoldsTheResetValues]

/-- Settles O25: the handshake transfers nothing under `rst`, and the step is the reset load past the sampled pins. -/
theorem resetEdgeLoadsTheResetValues : Obligations.ResetEdgeLoadsTheResetValues := by
  intro s h
  refine ⟨State.encRequest_of_rst h, State.decRequest_of_rst h, State.encDelivery_of_rst h, State.decDelivery_of_rst h,
    s.advance.loadReset, step_reset h, ?_⟩
  simp

/-- Settles O32. -/
theorem responsePinsAreTheRegisterFields : Obligations.ResponsePinsAreTheRegisterFields := by
  intro s rst e d
  simp

/-- Settles O40: both registers are empty at reset, with lengths 0. -/
theorem responseInvariantHoldsAtReset : Obligations.ResponseInvariantHoldsAtReset := ⟨EncQ.reset_inv, DecQ.reset_inv⟩

/-- Settles O41: the reset load meets the invariant, and an empty unit is ready whatever its `rsp_ready` is. -/
theorem oneResetEdgeMakesTheBlockReady : Obligations.OneResetEdgeMakesTheBlockReady := by
  intro s h
  refine ⟨s.advance.loadReset, step_reset h, s.advance.loadReset_inv, fun e d => ?_⟩
  simp

end Sys2Proof.Proofs
end

section
/-! Proofs about the byte-lane buses (20_memory.md R42) and the caller's read cursor (R53). -/

namespace Sys2Proof

/-- Bit k of a lane is the bus's bit 8i+k (00_scope.md R8). -/
theorem getLsbD_lane (bus : Bus) (i k : Nat) (hk : k < 8) : (lane bus i).getLsbD k = bus.getLsbD (8 * i + k) := by
  simp [lane, hk]

/-- The nine lanes of a bus, read little-endian, are the whole bus. -/
theorem le_lanes_all (bus : Bus) : le (lanes bus 0 9) = bus.toNat := by
  have hlt : bus.toNat < 2 ^ (8 * 9) := bus.isLt
  rw [le_lanes, Nat.mul_zero, Nat.pow_zero, Nat.div_one, Nat.mod_eq_of_lt hlt]

namespace Machine

/-- A Truncated response moves the cursor by nothing: its `len` is 0 (60_exceptions.md R141). -/
@[simp] theorem cursorAfter_raiseTruncated (c need : Nat) : cursorAfter c (raiseTruncated need) = c := rfl

/-- A decoded response moves the cursor by its length, which the four bits of `len` hold up to 15. -/
theorem cursorAfter_decodedResponse (c : Nat) {n : Nat} (v : Value) (hn : n < 2 ^ 4) :
    cursorAfter c (decodedResponse n v) = c + n := by
  rw [cursorAfter, decodedResponse, BitVec.toNat_ofNat, Nat.mod_eq_of_lt hn]

/-- A DEC transfer leaves the request's response in `dec_q`. -/
theorem decQ_of_exec_dec {bytes : Bus} {avail : Len} {s t : State} (h : exec (.dec bytes avail) s = .next t) :
    t.decQ = decResponse bytes avail := by
  rw [exec_dec_eq] at h
  cases h
  exact State.loadDec_decQ _ _

/-- The response to a request is Truncated, or the form of the window's declared length. -/
theorem decResponse_cases (bytes : Bus) (avail : Len) :
    (∃ need, decResponse bytes avail = raiseTruncated need) ∨
      ∃ v, decResponse bytes avail = decodedResponse (declaredLen bytes) v := by
  rcases Nat.lt_or_ge (effectiveAvail avail) (declaredLen bytes) with hshort | hwhole
  · exact .inl ⟨_, decResponse_truncated hshort⟩
  · exact .inr ⟨_, decResponse_decoded hwhole⟩

end Machine

end Sys2Proof

namespace Sys2Proof.Proofs

open Sys2Proof.Machine

/-- Settles O6: the number of nine lanes, and each lane as a number and bit by bit. -/
theorem busIsLittleEndianOfItsLanes : Obligations.BusIsLittleEndianOfItsLanes := by
  intro bus
  exact ⟨le_lanes_all bus, fun i _ => ⟨lane_toNat bus i, fun k hk => getLsbD_lane bus i k hk⟩⟩

/-- Settles O21: a Truncated carries length 0, a decoded form its declared length, at most 9, as both `len` and
`need`. -/
theorem cursorMovesByTheBytesConsumed : Obligations.CursorMovesByTheBytesConsumed := by
  intro w avail s t c h
  rw [decQ_of_exec_dec h, ← declaredLen_eq]
  rcases decResponse_cases w avail with ⟨need, hq⟩ | ⟨v, hq⟩ <;> rw [hq]
  · exact ⟨fun _ => cursorAfter_raiseTruncated c need, fun herr => by cases herr⟩
  · have hlen : declaredLen w < 2 ^ 4 := by have := (declaredLen_range w).2; omega
    exact ⟨fun herr => (by cases herr), fun _ => ⟨cursorAfter_decodedResponse c v hlen, rfl⟩⟩

end Sys2Proof.Proofs
end

section
/-! Proofs about encoded forms (30_encoding.md R60 to R70, R81): what a form's bytes are, what a window that begins with
one holds, and that `decode` and `encode` are each other's inverse. -/

namespace Sys2Proof

/-! ## Lanes as lists -/

theorem take_lanes (bus : Bus) (i : Nat) {n k : Nat} (h : n ≤ k) : (lanes bus i k).take n = lanes bus i n := by
  induction n generalizing i k with
  | zero => rfl
  | succ n ih =>
    match k, h with
    | k + 1, h => simp [lanes, ih (i + 1) (Nat.le_of_succ_le_succ h)]

/-- A nonempty list of lanes is its first lane and the lanes above it. -/
theorem lanes_of_pos (bus : Bus) (i : Nat) {n : Nat} (h : 0 < n) :
    lanes bus i n = lane bus i :: lanes bus (i + 1) (n - 1) := by
  match n, h with
  | _ + 1, _ => rfl

/-- The bus made from up to 9 bytes has any of them, from the first, in its low lanes. -/
theorem lanes_busOfBytes_take (bs : List Byte) {n : Nat} (hn : n ≤ bs.length) (h9 : bs.length ≤ 9) :
    lanes (busOfBytes bs) 0 n = bs.take n := by
  rw [← take_lanes _ _ hn, lanes_busOfBytes bs h9]

/-- The bytes of a list, read little-endian, have the low bits of its first byte. -/
theorem le_cons_mod (b : Byte) (bs : List Byte) {n : Nat} (h : n ≤ 8) : le (b :: bs) % 2 ^ n = b.toNat % 2 ^ n := by
  obtain ⟨c, hc⟩ : 2 ^ n ∣ 256 := Nat.pow_dvd_pow 2 h
  rw [le, hc, Nat.mul_assoc, Nat.add_mul_mod_self_left]

/-! ## The value of a form -/

/-- A class holds the value of every form of it. -/
theorem fitsClass_formValue (n : Nat) (bs : List Byte) : fitsClass n (formValue n bs) = true := by
  rw [fitsClass, decide_eq_true_eq, Config.classBits]
  split
  · exact (formValue n bs).isLt
  · have hle : le (bs.take n) < 2 ^ (7 * n + n) :=
      Nat.lt_of_lt_of_le (le_lt _) (Nat.pow_le_pow_right (by decide) (by rw [List.length_take]; omega))
    rw [formValue, if_neg ‹_›, BitVec.toNat_ofNat]
    refine Nat.lt_of_le_of_lt (Nat.mod_le _ _) (Nat.div_lt_of_lt_mul ?_)
    rwa [Nat.mul_comm, ← Nat.pow_add]

/-- The pseudocode's value of a window is the value of the form at the head of its lanes (41_decoder.md R113, R114). -/
theorem Machine.decValue_eq_formValue (w : Bus) {n k : Nat} (hn : n ≤ 9) (hk : n ≤ k) :
    Machine.decValue w n = formValue n (lanes w 0 k) := by
  by_cases h9 : n = 9
  · subst h9
    rw [Machine.decValue, formValue, if_pos rfl, if_pos rfl, lanes_of_pos w 0 (by omega), List.drop_one, List.tail_cons,
      take_lanes _ _ (by omega), Machine.memRead]
  · apply BitVec.eq_of_toNat_eq
    have hlt : le (lanes w 0 n) / 2 ^ n < 2 ^ 64 :=
      Machine.decValue_toNat (bytes := w) (n := n) (by omega) ▸ (Machine.decValue w n).isLt
    rw [Machine.decValue_toNat (by omega), formValue, if_neg h9, take_lanes _ _ hk, BitVec.toNat_ofNat,
      Nat.mod_eq_of_lt hlt, Machine.memRead]

/-- The bytes of one whole form, read little-endian, are its value above its marker. -/
theorem le_of_wholeForm (h : Byte) (t : List Byte) (hl : (h :: t).length = hdrLen h) :
    le (h :: t) = (if hdrLen h = 9 then (formValue (hdrLen h) (h :: t)).toNat * 256
      else (formValue (hdrLen h) (h :: t)).toNat * 2 ^ hdrLen h + 2 ^ (hdrLen h - 1)) := by
  have hr := hdrLen_range h
  have hlt := le_lt (h :: t)
  by_cases h9 : hdrLen h = 9
  · have hz : h = 0 := (hdrLen_nine_iff h).1 h9
    have ht : t.length = 8 := by simpa [h9] using hl
    have hval : (formValue 9 (h :: t)).toNat = le t := by
      rw [formValue, if_pos rfl, List.drop_one, List.tail_cons, List.take_of_length_le (by omega), BitVec.toNat_ofNat]
      exact Nat.mod_eq_of_lt (by simpa [ht] using le_lt t)
    rw [if_pos h9, h9, hval, hz]
    simp [le, Nat.mul_comm]
  · have hmark := (hdrLen_eq_iff_marker h (hdrLen h) hr.1 (by omega)).1 rfl
    have hval : (formValue (hdrLen h) (h :: t)).toNat = le (h :: t) / 2 ^ hdrLen h := by
      rw [formValue, if_neg h9, ← hl, List.take_length, BitVec.toNat_ofNat]
      refine Nat.mod_eq_of_lt (Nat.lt_of_le_of_lt (Nat.div_le_self _ _) (Nat.lt_of_lt_of_le hlt ?_))
      exact Nat.pow_le_pow_right (by decide) (by omega)
    rw [if_neg h9, hval, ← hmark, ← le_cons_mod h t (n := hdrLen h) (by omega), Nat.mul_comm, Nat.div_add_mod]

/-! ## The form decoder -/

/-- What a byte string that begins with a whole form is: the converse of `decodeForm_whole`. -/
theorem decodeForm_ok {bs rest : List Byte} {i : Instr} (h : decodeForm bs = .ok (i, rest)) :
    ∃ b t, bs = b :: t ∧ hdrLen b ≤ bs.length ∧ i = classInstr (hdrLen b) (formValue (hdrLen b) bs) ∧
      rest = bs.drop (hdrLen b) := by
  cases bs with
  | nil => cases h
  | cons b t =>
    rcases Nat.lt_or_ge (b :: t).length (hdrLen b) with hshort | hwhole
    · rw [decodeForm_short b t hshort] at h
      cases h
    · rw [decodeForm_whole b t hwhole] at h
      cases h
      exact ⟨b, t, rfl, hwhole, rfl, rfl⟩

/-- A byte string decodes as one form exactly when the form decoder leaves no byte of it. -/
theorem decode_form_eq_ok_iff {bs : List Byte} {i : Instr} :
    decode (.form bs) = .ok i ↔ decodeForm bs = .ok (i, []) := by
  simp only [decode]
  split <;> simp_all

/-- The bytes of a value its class holds decode to that value's class instruction. -/
theorem decode_encode_classInstr {n : Nat} {v : Value} (hn : 1 ≤ n ∧ n ≤ 9) (hf : fitsClass n v = true) :
    decode (encode (classInstr n v)) = .ok (classInstr n v) := by
  obtain ⟨bs, henc, hlen, hle⟩ := encode_classInstr n v hn hf
  have hlanes : lanes (busOfBytes bs) 0 n = bs := by rw [← hlen]; exact lanes_busOfBytes bs (by omega)
  obtain ⟨hdecl, hval⟩ := window_of_form (busOfBytes bs) n v hn (by rw [hlanes, hle])
  rw [Machine.declaredLen_eq] at hdecl
  rw [Machine.decValue_eq_formValue _ hn.2 (Nat.le_refl n), hlanes] at hval
  rw [lanes_of_pos _ _ (by omega)] at hlanes
  rw [henc, decode_form_eq_ok_iff, ← hlanes, decodeForm_whole _ _ (by rw [hlanes]; omega), hlanes, hdecl, hval,
    List.drop_of_length_le (by omega)]

/-- Every instruction is a request or the instruction of one of the nine classes. -/
theorem Instr.cases_request_or_class (i : Instr) :
    (∃ v, i = .enc v) ∨ (∃ w a, i = .dec w a) ∨ ∃ n v, (1 ≤ n ∧ n ≤ 9) ∧ i = classInstr n v := by
  cases i with
  | enc v => exact .inl ⟨v, rfl⟩
  | dec w a => exact .inr (.inl ⟨w, a, rfl⟩)
  | vi1 v => exact .inr (.inr ⟨1, v, by decide, rfl⟩)
  | vi2 v => exact .inr (.inr ⟨2, v, by decide, rfl⟩)
  | vi3 v => exact .inr (.inr ⟨3, v, by decide, rfl⟩)
  | vi4 v => exact .inr (.inr ⟨4, v, by decide, rfl⟩)
  | vi5 v => exact .inr (.inr ⟨5, v, by decide, rfl⟩)
  | vi6 v => exact .inr (.inr ⟨6, v, by decide, rfl⟩)
  | vi7 v => exact .inr (.inr ⟨7, v, by decide, rfl⟩)
  | vi8 v => exact .inr (.inr ⟨8, v, by decide, rfl⟩)
  | vi9 v => exact .inr (.inr ⟨9, v, by decide, rfl⟩)

namespace Machine

/-! ## The form ENC gives -/

theorem encForm_length (v : Value) : (encForm v).length = encLen v := lanes_length _ _ _

/-- `enc_len(v)` is a class that holds v. -/
theorem fitsClass_encLen (v : Value) : fitsClass (encLen v) v = true := by
  rw [fitsClass, decide_eq_true_eq, Config.classBits]
  split
  · exact v.isLt
  · have hr := (encLen_range v).2
    exact lt_of_encLen v (by omega)

/-- The four bits of `len` hold `enc_len(v)`. -/
theorem encLen_toNat (v : Value) : (BitVec.ofNat 4 (encLen v)).toNat = encLen v := by
  have hr := (encLen_range v).2
  rw [BitVec.toNat_ofNat]
  omega

/-- ENC's form is the layout of the class instruction of class `enc_len(v)` (40_encoder.md R91). -/
theorem encode_classInstr_encLen (v : Value) : encode (classInstr (encLen v) v) = .form (encForm v) := by
  obtain ⟨bs, henc, hlen, hle⟩ := encode_classInstr (encLen v) v (encLen_range v) (fitsClass_encLen v)
  have hbs : bs = encForm v :=
    bytes_eq_of_le (hlen.trans (encForm_length v).symm) (hle.trans (le_lanes_encBytes v).symm)
  rw [henc, hbs]

end Machine

end Sys2Proof

namespace Sys2Proof.Proofs

open Sys2Proof.Machine

/-- Settles O3: a request is read back from its select vector, a class instruction from its bytes. -/
theorem decodeOfEncodeIsTheInstruction : Obligations.DecodeOfEncodeIsTheInstruction := by
  intro i hw
  obtain ⟨v, rfl⟩ | ⟨w, a, rfl⟩ | ⟨n, v, hn, rfl⟩ := i.cases_request_or_class
  · rfl
  · rfl
  · exact decode_encode_classInstr hn (classInstr_wellFormed n v hn ▸ hw)

/-- Settles O4: the bytes and the encoding of what they decode to have one length and one little-endian number. -/
theorem encodeOfDecodedFormIsTheBytes : Obligations.EncodeOfDecodedFormIsTheBytes := by
  intro bs i h
  obtain ⟨b, t, rfl, hwhole, rfl, hrest⟩ := decodeForm_ok (decode_form_eq_ok_iff.1 h)
  have hr := hdrLen_range b
  have hfits := fitsClass_formValue (hdrLen b) (b :: t)
  have hlen : (b :: t).length = hdrLen b := Nat.le_antisymm (List.drop_eq_nil_iff.1 hrest.symm) hwhole
  obtain ⟨bs, henc, hlen', hle⟩ := encode_classInstr _ _ hr hfits
  refine ⟨(classInstr_wellFormed _ _ hr).trans hfits, ?_⟩
  rw [henc, bytes_eq_of_le (hlen'.trans hlen.symm) (hle.trans (le_of_wholeForm b t hlen).symm)]

/-- Settles O5. -/
theorem formLengthIsKnownFromTheHeader : Obligations.FormLengthIsKnownFromTheHeader :=
  fun h t => ⟨fun hwhole => ⟨_, decodeForm_whole h t hwhole⟩, decodeForm_short h t⟩

/-- Settles O13: the register after ENC holds the form and its length, and that form is the class's layout. -/
theorem encFormHasItsClassLayout : Obligations.EncFormHasItsClassLayout := by
  intro v s t h
  rw [exec_enc_eq] at h
  cases h
  rw [encode_classInstr_encLen, encLen_toNat]
  rfl

/-- Settles O2: closed words, evaluated. -/
theorem writtenOutWordsDecode : Obligations.WrittenOutWordsDecode := by
  unfold Obligations.WrittenOutWordsDecode
  decide

end Sys2Proof.Proofs
end

section
/-! Proofs about the class instructions (log 1), what DEC does with a window that begins with a form (41_decoder.md R113
to R119), and the step that runs what the request-select vector selects (30_encoding.md R71). -/

namespace Sys2Proof.Machine

/-! ## The class instructions -/

theorem payload_of_lt {k : Nat} {v : Value} (h : v.toNat < 2 ^ k) : payload k v = v := by
  apply BitVec.eq_of_toNat_eq
  rw [payload, BitVec.toNat_setWidth, BitVec.extractLsb'_toNat, Nat.shiftRight_zero, Nat.mod_eq_of_lt h,
    Nat.mod_eq_of_lt v.isLt]

/-- `exec` of a class instruction loads the low bits of its value that the class holds (log 11). -/
theorem exec_classInstr_payload {n : Nat} (hn : 1 ≤ n ∧ n ≤ 9) (v : Value) (s : State) :
    exec (classInstr n v) s = .next (s.loadDec (decodedResponse n (payload (Config.classBits n) v))) := by
  rcases class_cases hn with rfl | rfl | rfl | rfl | rfl | rfl | rfl | rfl | rfl <;> rfl

/-- `exec` of a class instruction loads the value, where the class holds it. -/
theorem exec_classInstr {n : Nat} {v : Value} (hn : 1 ≤ n ∧ n ≤ 9) (hf : fitsClass n v = true) (s : State) :
    exec (classInstr n v) s = .next (s.loadDec (decodedResponse n v)) := by
  rw [exec_classInstr_payload hn, payload_of_lt (of_decide_eq_true hf)]

/-! ## DEC of a window -/

theorem effectiveAvail_of_nine_le {a : Len} (h : 9 ≤ a.toNat) : effectiveAvail a = 9 := Nat.min_eq_right h

/-- The response depends on the count through its effective value only (41_decoder.md R110). -/
theorem decResponse_congr_avail (w : Bus) {a b : Len} (h : effectiveAvail a = effectiveAvail b) :
    decResponse w a = decResponse w b := by
  rw [decResponse, decResponse, truncated, truncated, truncatedNeed, truncatedNeed, h]

/-- A whole form of class n holding v in the low lanes, all of it available, is answered by v. -/
theorem decResponse_of_form {w : Bus} {avail : Len} {n : Nat} {v : Value} (hn : 1 ≤ n ∧ n ≤ 9)
    (hf : fitsClass n v = true) (hform : encode (classInstr n v) = .form (lanes w 0 n)) (ha : n ≤ avail.toNat) :
    decResponse w avail = decodedResponse n v := by
  obtain ⟨bs, henc, -, hle⟩ := encode_classInstr n v hn hf
  obtain rfl : lanes w 0 n = bs := Encoded.form.inj (hform.symm.trans henc)
  obtain ⟨hdecl, hval⟩ := window_of_form w n v hn hle
  have heff : n ≤ effectiveAvail avail := Nat.le_min.2 ⟨ha, hn.2⟩
  rw [decResponse_decoded (hdecl ▸ heff), hdecl, hval]

/-- Where the available lanes begin with a whole form, DEC is that form's class instruction. -/
theorem exec_dec_eq_exec_of_decodeForm {w : Bus} {avail : Len} {i : Instr} {rest : List Byte}
    (h : decodeForm (lanes w 0 (effectiveAvail avail)) = .ok (i, rest)) (s : State) :
    exec (.dec w avail) s = exec i s := by
  obtain ⟨b, t, hbt, hlen, rfl, -⟩ := decodeForm_ok h
  have hr := hdrLen_range b
  rw [lanes_length] at hlen
  obtain rfl : lane w 0 = b := by
    rw [lanes_of_pos w 0 (by omega)] at hbt
    exact (List.cons.inj hbt).1
  rw [exec_classInstr hr (fitsClass_formValue _ _), ← decValue_eq_formValue w hr.2 hlen, exec_dec_eq]
  rw [← declaredLen_eq] at hlen ⊢
  rw [decResponse_decoded hlen]

/-! ## The selected instructions -/

theorem execAll_singleton (i : Instr) (s : State) : execAll [i] s = exec i s := by
  simp only [execAll]
  cases exec i s <;> rfl

/-- The select vector reads the registers only, which moving past the sampled pins keeps. -/
theorem selectVector_advance (p : Inputs) (e d : Bool) (s : State) :
    selectVector p e d s.advance = selectVector p e d s := by
  simp [selectVector]

/-- At an edge that is no reset edge, with levels on the `rsp_ready` pins, the step runs the selected instructions. -/
theorem step_eq_execAll {s : State} {p : Inputs} {e d : Bool} (hp : p = s.sampled) (hr : p.rst = false)
    (he : p.encRspReady = .level e) (hd : p.decRspReady = .level d) :
    step s = execAll (selectedInstrs (selectVector p e d s) p.encReqValue p.decReqBytes p.decReqAvail)
      ((s.advance.drainEnc e).drainDec d) := by
  subst hp
  simp [step, clockEdge, edge, hr, he, hd, transferEdge, selectVector_advance]

/-- A select vector with its fields names one instruction exactly when it selects that one alone. -/
theorem decode_request_eq_ok_iff {select : BitVec 2} {v : Value} {w : Bus} {a : Len} {i : Instr} :
    decode (.request select v w a) = .ok i ↔ selectedInstrs select v w a = [i] := by
  simp only [decode]
  split <;> simp_all

@[simp] theorem selectedInstrs_none (v : Value) (w : Bus) (a : Len) : selectedInstrs 0b00 v w a = [] := rfl
@[simp] theorem selectedInstrs_dec (v : Value) (w : Bus) (a : Len) : selectedInstrs 0b10 v w a = [.dec w a] := rfl
@[simp] theorem selectedInstrs_both (v : Value) (w : Bus) (a : Len) :
    selectedInstrs 0b11 v w a = [.enc v, .dec w a] := rfl

end Sys2Proof.Machine

namespace Sys2Proof.Proofs

open Sys2Proof.Machine

/-- Settles O23. -/
theorem classFormsLoadTheirValue : Obligations.ClassFormsLoadTheirValue := by
  intro v s
  have hclass : ∀ n, 1 ≤ n ∧ n ≤ 9 → v.toNat < 2 ^ Config.classBits n →
      exec (classInstr n v) s = .next (s.loadDec (decodedResponse n v)) :=
    fun n hn hv => exec_classInstr hn (decide_eq_true hv) s
  exact ⟨hclass 1 (by decide), hclass 2 (by decide), hclass 3 (by decide), hclass 4 (by decide), hclass 5 (by decide),
    hclass 6 (by decide), hclass 7 (by decide), hclass 8 (by decide), hclass 9 (by decide) v.isLt⟩

/-- Settles O24. -/
theorem decRunsTheClassOfItsWindow : Obligations.DecRunsTheClassOfItsWindow :=
  fun _ _ _ _ s h => exec_dec_eq_exec_of_decodeForm h s

/-- Settles O20: both counts have the effective value 9. -/
theorem nineOrMoreAvailableAreTheSame : Obligations.NineOrMoreAvailableAreTheSame := by
  intro w a b s ha hb
  have heff : effectiveAvail a = effectiveAvail b :=
    (effectiveAvail_of_nine_le ha).trans (effectiveAvail_of_nine_le hb).symm
  rw [exec_dec_eq, exec_dec_eq, decResponse_congr_avail w heff]

/-- Settles O28: the step runs the list the vector selects, which has one element, none, or ENC and DEC. -/
theorem stepRunsTheSelectedInstructions : Obligations.StepRunsTheSelectedInstructions := by
  intro s p e d hp hr he hd
  have hstep := step_eq_execAll hp hr he hd
  refine ⟨fun i hi => ?_, fun h00 => ?_, fun h11 => ⟨_, exec_enc_eq _ _, ?_⟩⟩
  · rw [hstep, decode_request_eq_ok_iff.1 hi, execAll_singleton]
  · rw [hstep, h00, selectedInstrs_none, execAll]
  · rw [hstep, h11, selectedInstrs_both, execAll, exec_enc_eq]
    exact execAll_singleton _ _

/-- Settles O29: the one instruction selected is DEC of the window, which is the form's class instruction. -/
theorem stepRunsTheClassOfThePresentedForm : Obligations.StepRunsTheClassOfThePresentedForm := by
  intro s p e d i rest hp hr he hd h10 hform
  rw [step_eq_execAll hp hr he hd, h10, selectedInstrs_dec, execAll_singleton, exec_dec_eq_exec_of_decodeForm hform]

end Sys2Proof.Proofs
end

section
/-! Proofs about the invariant of the response registers (30_encoding.md R76, 40_encoder.md R91, 41_decoder.md R120,
60_exceptions.md R141): each unit's register keeps it at every edge. -/

namespace Sys2Proof.Machine

theorem raiseTruncated_inv {n : Nat} (h9 : n ≤ 9) (h1 : n ≠ 1) : (raiseTruncated n).Inv := by
  have hn : (raiseTruncated n).need.toNat = n := by
    rw [raiseTruncated, BitVec.toNat_ofNat]
    omega
  refine ⟨Nat.zero_le 9, by omega, fun _ herr => (by cases herr), fun _ _ => ⟨rfl, rfl, fun hneed => h1 ?_⟩⟩
  rw [← hn, hneed]
  rfl

theorem decodedResponse_inv {n : Nat} {v : Value} (hn : 1 ≤ n ∧ n ≤ 9) (hf : fitsClass n v = true) :
    (decodedResponse n v).Inv := by
  have hlen : (decodedResponse n v).len.toNat = n := by
    rw [decodedResponse, BitVec.toNat_ofNat]
    omega
  refine ⟨hlen.trans_le hn.2, hlen.trans_le hn.2, fun _ _ => ⟨by omega, rfl, ?_⟩, fun _ herr => by cases herr⟩
  rw [hlen]
  exact of_decide_eq_true hf

/-- `need` of a truncated request is 0 or a declared length above the available count: never 1. -/
theorem truncatedNeed_ne_one {w : Bus} {a : Len} (h : effectiveAvail a < declaredLen w) : truncatedNeed w a ≠ 1 := by
  rw [truncatedNeed]
  split <;> omega

theorem truncatedNeed_le (w : Bus) (a : Len) : truncatedNeed w a ≤ 9 := by
  have hr := declaredLen_range w
  rw [truncatedNeed]
  split <;> omega

/-- Every answer DEC gives meets the invariant. -/
theorem decResponse_inv (w : Bus) (a : Len) : (decResponse w a).Inv := by
  have hr := declaredLen_range w
  rcases Nat.lt_or_ge (effectiveAvail a) (declaredLen w) with hshort | hwhole
  · rw [decResponse_truncated hshort]
    exact raiseTruncated_inv (truncatedNeed_le w a) (truncatedNeed_ne_one hshort)
  · rw [decResponse_decoded hwhole, decValue_eq_formValue w hr.2 (Nat.le_refl _)]
    exact decodedResponse_inv hr (fitsClass_formValue _ _)

/-- The encoder's register keeps its invariant: it holds a new form, or what it held, or nothing. -/
theorem encAfter_inv {q : EncQ} (h : q.Inv) (p : Inputs) (ready : Bool) : (encAfter p ready q).Inv := by
  obtain ⟨hlen, hform⟩ := h
  rw [encAfter]
  split
  · exact ⟨(encLen_toNat _).trans_le (encLen_range _).2, fun _ => ⟨_, rfl, rfl⟩⟩
  · exact ⟨hlen, fun hv => hform (Bool.and_eq_true_iff.1 hv).1⟩

/-- The decoder's register keeps its invariant. -/
theorem decAfter_inv {q : DecQ} (h : q.Inv) (p : Inputs) (ready : Bool) : (decAfter p ready q).Inv := by
  obtain ⟨hlen, hneed, hok, herr⟩ := h
  rw [decAfter]
  split
  · exact decResponse_inv _ _
  · exact ⟨hlen, hneed, fun hv => hok (Bool.and_eq_true_iff.1 hv).1, fun hv => herr (Bool.and_eq_true_iff.1 hv).1⟩

end Sys2Proof.Machine

namespace Sys2Proof.Proofs

open Sys2Proof.Machine

/-- Settles O39: a reset edge loads registers that meet the invariant, at any other edge each unit keeps its own. -/
theorem everyStepKeepsTheResponseInvariant : Obligations.EveryStepKeepsTheResponseInvariant := by
  rintro s t ⟨henc, hdec⟩ hstep
  obtain ⟨-, rfl⟩ | ⟨e, d, -, -, -, rfl⟩ := step_cases hstep
  · exact s.advance.loadReset_inv
  · exact ⟨encAfter_inv henc _ e, decAfter_inv hdec _ d⟩

end Sys2Proof.Proofs
end

section
/-! Proofs about the caller's pseudo-operations RT and DECSTREAM (30_encoding.md R80, log 15). -/

namespace Sys2Proof.Machine

/-! ## DEC of the form ENC gives, whole or cut -/

/-- The whole form of v in the low lanes, all of it available, is answered by v (41_decoder.md R116). -/
theorem decResponse_of_encForm {w : Bus} {avail : Len} {v : Value} (hw : lanes w 0 (encLen v) = encForm v)
    (ha : encLen v ≤ avail.toNat) : decResponse w avail = decodedResponse (encLen v) v :=
  decResponse_of_form (encLen_range v) (fitsClass_encLen v) (by rw [hw, encode_classInstr_encLen]) ha

/-- ENC's form declares its own length. -/
theorem declaredLen_encBytes (v : Value) : declaredLen (encBytes v) = encLen v :=
  (window_of_form _ _ v (encLen_range v) (le_lanes_encBytes v)).1

/-- The first k bytes of the form of v, and no more available, are answered by Truncated (41_decoder.md R119). -/
theorem decResponse_of_cut_encForm {w : Bus} {avail : Len} {v : Value}
    (hw : lanes w 0 avail.toNat = (encForm v).take avail.toNat) (h1 : 1 ≤ avail.toNat) (hcut : avail.toNat < encLen v) :
    decResponse w avail = raiseTruncated (encLen v) := by
  have h9 := (encLen_range v).2
  have heff : effectiveAvail avail = avail.toNat := Nat.min_eq_left (Nat.le_trans hcut.le h9)
  have hlane : lane w 0 = lane (encBytes v) 0 := by
    rw [encForm, take_lanes _ _ hcut.le, lanes_of_pos w 0 h1, lanes_of_pos _ 0 h1] at hw
    exact (List.cons.inj hw).1
  have hdecl : declaredLen w = encLen v := by
    rw [declaredLen_eq, hlane, ← declaredLen_eq, declaredLen_encBytes]
  rw [decResponse_truncated (by omega), truncatedNeed, if_neg (by omega), hdecl]

/-! ## The cycles of RT -/

/-- A line is one edge that offers its request with both `rsp_ready` at 1. -/
theorem step_line (eq : EncQ) (dq : DecQ) (l : Line) (ps : List Inputs) (draws : Nat) :
    step ⟨eq, dq, l.inputs :: ps, draws⟩ = .next ⟨encAfter l.inputs true eq, decAfter l.inputs true dq, ps, draws⟩ := by
  cases l <;> exact step_transfer rfl rfl rfl

/-- A RESET line is a reset edge. -/
theorem step_resetInputs {s : State} {ps : List Inputs} (h : s.inputs = resetInputs :: ps) :
    step s = .next ⟨EncQ.reset, DecQ.reset, ps, s.draws⟩ := by
  obtain ⟨eq, dq, inputs, draws⟩ := s
  cases h
  exact step_reset rfl

/-- An ENC line fills the encoder's register, whatever it held. -/
theorem encAfter_encLine (v : Value) (q : EncQ) :
    encAfter (Line.inputs (.enc v)) true q = ⟨true, BitVec.ofNat 4 (encLen v), encBytes v⟩ := by
  simp [encAfter, Line.inputs, idleInputs, reqReady]

/-- A DEC line lets the encoder's response go. -/
theorem encAfter_decLine (bs : List Byte) (avail : Option Len) (q : EncQ) :
    encAfter (Line.inputs (.dec bs avail)) true q = { q with valid := false } := by
  simp [encAfter, Line.inputs, idleInputs]

/-- A DEC line answers its bytes, whatever the decoder's register held. -/
theorem decAfter_decLine (bs : List Byte) (avail : Option Len) (q : DecQ) :
    decAfter (Line.inputs (.dec bs avail)) true q = decResponse (busOfBytes bs) (availOfLine bs avail) := by
  simp [decAfter, Line.inputs, idleInputs, reqReady]

/-- The DEC line of RT is answered by the value ENC was given. -/
theorem decResponse_roundTripLine (v : Value) :
    decResponse (busOfBytes (encForm v)) (availOfLine (encForm v) none) = decodedResponse (encLen v) v := by
  have hlen := encForm_length v
  have h9 := (encLen_range v).2
  have havail : (availOfLine (encForm v) none).toNat = encLen v := by
    rw [availOfLine, Option.getD_none, hlen, encLen_toNat]
  have hlanes : lanes (busOfBytes (encForm v)) 0 (encLen v) = encForm v :=
    hlen ▸ lanes_busOfBytes (encForm v) (hlen ▸ h9)
  exact decResponse_of_encForm hlanes havail.ge

/-! ## The turns of DECSTREAM -/

/-- The response the loop gets at cursor c. -/
def streamResponse (stream : List Byte) (c : Nat) : DecQ :=
  decResponse (busOfBytes (streamWindow stream c)) (BitVec.ofNat 4 (streamWindow stream c).length)

/-- A result with values decoded before it. -/
def StreamResult.prepend (vs : List Value) (r : StreamResult) : StreamResult := { r with values := vs ++ r.values }

theorem StreamResult.prepend_nil (r : StreamResult) : r.prepend [] = r := rfl

theorem StreamResult.prepend_prepend (v : Value) (vs : List Value) (r : StreamResult) :
    (r.prepend vs).prepend [v] = r.prepend (v :: vs) := rfl

theorem StreamResult.prepend_mk (vs : List Value) (c : Nat) (stopped : Bool) :
    StreamResult.prepend vs ⟨[], c, stopped⟩ = ⟨vs, c, stopped⟩ := by
  rw [StreamResult.prepend, List.append_nil]

/-- The loop ends at the end of the stream, whatever the fuel. -/
theorem decStreamFrom_end {stream : List Byte} {c : Nat} (h : stream.length ≤ c) (fuel : Nat) :
    decStreamFrom stream fuel c = ⟨[], c, false⟩ := by
  cases fuel with
  | zero => rfl
  | succ fuel => rw [decStreamFrom, if_neg (by omega)]

/-- The loop stops on an error. -/
theorem decStreamFrom_err {stream : List Byte} {c : Nat} (hc : c < stream.length)
    (h : (streamResponse stream c).err = true) (fuel : Nat) : decStreamFrom stream (fuel + 1) c = ⟨[], c, true⟩ := by
  rw [decStreamFrom, if_pos hc]
  exact if_pos h

/-- On success the loop goes on from the moved cursor. -/
theorem decStreamFrom_ok {stream : List Byte} {c : Nat} (hc : c < stream.length)
    (h : (streamResponse stream c).err = false) (fuel : Nat) :
    decStreamFrom stream (fuel + 1) c =
      (decStreamFrom stream fuel (cursorAfter c (streamResponse stream c))).prepend
        [(streamResponse stream c).value] := by
  rw [decStreamFrom, if_pos hc]
  exact if_neg (by rw [← streamResponse, h]; decide)

theorem streamWindow_length_le (stream : List Byte) (c : Nat) : (streamWindow stream c).length ≤ 9 :=
  List.length_take_le _ _

/-- The four bits of `avail` hold the length of a window. -/
theorem avail_streamWindow (stream : List Byte) (c : Nat) :
    (BitVec.ofNat 4 (streamWindow stream c).length).toNat = (streamWindow stream c).length := by
  have h9 := streamWindow_length_le stream c
  rw [BitVec.toNat_ofNat]
  omega

/-- A cursor with bytes left after it stands in the stream. -/
theorem lt_length_of_drop {stream rest : List Byte} {c : Nat} (h : stream.drop c = rest) (hpos : 0 < rest.length) :
    c < stream.length := by
  rw [← h, List.length_drop] at hpos
  omega

/-- At a whole form the loop gets the form's value. -/
theorem streamResponse_form {stream rest : List Byte} {c : Nat} {v : Value} (h : stream.drop c = encForm v ++ rest) :
    streamResponse stream c = decodedResponse (encLen v) v := by
  have hlen := encForm_length v
  have h9 := (encLen_range v).2
  have hwin : (streamWindow stream c).take (encLen v) = encForm v := by
    rw [streamWindow, List.take_take, Nat.min_eq_left (show encLen v ≤ Config.maxLen from h9), h, ← hlen,
      List.take_left]
  have hle : encLen v ≤ (streamWindow stream c).length := by
    rw [← hlen, ← hwin]
    exact List.length_take_le' _ _
  refine decResponse_of_encForm ?_ (by rwa [avail_streamWindow])
  rw [lanes_busOfBytes_take _ hle (streamWindow_length_le _ _), hwin]

/-- At a form cut short by the stream's end the loop gets Truncated. -/
theorem streamResponse_cut {stream : List Byte} {c k : Nat} {v : Value} (h : stream.drop c = (encForm v).take k)
    (h1 : 1 ≤ k) (hcut : k < encLen v) : streamResponse stream c = raiseTruncated (encLen v) := by
  have hlen := encForm_length v
  have h9 := (encLen_range v).2
  have hwin : streamWindow stream c = (encForm v).take k := by
    rw [streamWindow, h, List.take_of_length_le]
    exact Nat.le_trans (List.length_take_le _ _) (Nat.le_trans hcut.le h9)
  have havail := avail_streamWindow stream c
  have hk : (streamWindow stream c).length = k := by rw [hwin, List.length_take]; omega
  rw [hk] at havail
  rw [streamResponse, hk]
  refine decResponse_of_cut_encForm ?_ (by omega) (by omega)
  rw [havail, ← hwin, ← hk]
  exact lanes_busOfBytes _ (streamWindow_length_le _ _)

/-- One turn at a whole form: its value, and the loop from behind it. -/
theorem decStreamFrom_form {stream rest : List Byte} {c : Nat} {v : Value} (h : stream.drop c = encForm v ++ rest)
    (fuel : Nat) :
    decStreamFrom stream (fuel + 1) c = (decStreamFrom stream fuel (c + encLen v)).prepend [v] := by
  have hr := encLen_range v
  have hc : c < stream.length := lt_length_of_drop h (by rw [List.length_append, encForm_length]; omega)
  have hq := streamResponse_form h
  rw [decStreamFrom_ok hc (by rw [hq]; rfl), hq, cursorAfter_decodedResponse c v (by omega)]
  rfl

/-- By induction on the values: a turn for each of the forms from the cursor on, then the loop from behind them. -/
theorem decStreamFrom_forms {stream rest : List Byte} (vs : List Value) {c : Nat}
    (h : stream.drop c = vs.flatMap encForm ++ rest) (fuel : Nat) :
    decStreamFrom stream (vs.length + fuel) c =
      (decStreamFrom stream fuel (c + (vs.flatMap encForm).length)).prepend vs := by
  induction vs generalizing c with
  | nil => rw [List.length_nil, Nat.zero_add, StreamResult.prepend_nil, List.flatMap_nil, List.length_nil, Nat.add_zero]
  | cons v vs ih =>
    rw [List.flatMap_cons, List.append_assoc] at h
    have hrest : stream.drop (c + encLen v) = vs.flatMap encForm ++ rest := by
      rw [← List.drop_drop, h, ← encForm_length v, List.drop_left]
    rw [List.length_cons, Nat.add_right_comm, decStreamFrom_form h, ih hrest,
      StreamResult.prepend_prepend, List.flatMap_cons, List.length_append, encForm_length, Nat.add_assoc]

/-- Every form has a byte, so as much fuel as the stream is long is enough. -/
theorem length_le_length_forms (vs : List Value) : vs.length ≤ (vs.flatMap encForm).length := by
  induction vs with
  | nil => exact Nat.le_refl 0
  | cons v vs ih =>
    have hr := encLen_range v
    rw [List.flatMap_cons, List.length_append, List.length_cons, encForm_length]
    omega

/-- DECSTREAM over forms and what follows them: a turn for each form, then the loop from behind them. -/
theorem decStream_forms (vs : List Value) (rest : List Byte) {fuel : Nat}
    (hfuel : (vs.flatMap encForm ++ rest).length = vs.length + fuel) :
    decStream (vs.flatMap encForm ++ rest) =
      (decStreamFrom (vs.flatMap encForm ++ rest) fuel (vs.flatMap encForm).length).prepend vs := by
  rw [decStream, hfuel, decStreamFrom_forms vs (List.drop_zero), Nat.zero_add]

end Sys2Proof.Machine

namespace Sys2Proof.Proofs

open Sys2Proof.Machine

/-- Settles O42: the three edges one after another; the DEC line presents the form in `enc_q`. -/
theorem roundTripThroughBothUnitsInThreeCycles : Obligations.RoundTripThroughBothUnitsInThreeCycles := by
  intro v s ps h
  have hreset := step_resetInputs h
  have henc := step_line EncQ.reset DecQ.reset (.enc v) (Line.inputs (.dec (encForm v) none) :: ps) s.draws
  have hdec (eq dq) := step_line eq dq (.dec (encForm v) none) ps s.draws
  have hrun := (run_succ_of_step (k := 2) hreset).trans ((run_succ_of_step henc).trans (run_succ_of_step (hdec _ _)))
  refine ⟨_, hrun, rfl, ?_, ?_⟩
  · rw [encAfter_decLine, encAfter_encLine]
  · rw [decAfter_decLine, decResponse_roundTripLine, decodedResponse]

/-- Settles O43: a turn for each value, then the end of the stream. -/
theorem decStreamDecodesConcatenatedForms : Obligations.DecStreamDecodesConcatenatedForms := by
  intro vs
  obtain ⟨fuel, hfuel⟩ := Nat.exists_eq_add_of_le (length_le_length_forms vs)
  have h := decStream_forms vs [] (fuel := fuel) (by rw [List.append_nil, hfuel])
  rw [List.append_nil, decStreamFrom_end (Nat.le_refl _), StreamResult.prepend_mk] at h
  exact h

/-- Settles O44: a turn for each value, then Truncated at the cut form. -/
theorem decStreamStopsAtACutForm : Obligations.DecStreamStopsAtACutForm := by
  intro vs v k h1 hcut
  have hlen : ((encForm v).take k).length = k := List.length_take_of_le (by rw [encForm_length]; exact hcut.le)
  obtain ⟨fuel, hfuel⟩ : ∃ fuel, (vs.flatMap encForm ++ (encForm v).take k).length = vs.length + (fuel + 1) := by
    have hle := length_le_length_forms vs
    rw [List.length_append, hlen]
    exact ⟨(vs.flatMap encForm).length + k - vs.length - 1, by omega⟩
  have hdrop : (vs.flatMap encForm ++ (encForm v).take k).drop (vs.flatMap encForm).length = (encForm v).take k :=
    List.drop_left
  have herr := congrArg DecQ.err (streamResponse_cut hdrop h1 hcut)
  rw [decStream_forms vs _ hfuel, decStreamFrom_err (lt_length_of_drop hdrop (by omega)) herr, StreamResult.prepend_mk]

end Sys2Proof.Proofs
end

section
/-! Proofs about ENC (40_encoder.md R90 to R94): `enc_len` compared with each class, the form's unused lanes, and that the
form gives its value back. -/

namespace Sys2Proof.Machine

/-! ## `enc_len` and the classes (R90, R92, R94) -/

/-- A class m in 1..8 is too short for v exactly when v has more than 7m bits. -/
theorem lt_encLen_iff (v : Value) {m : Nat} (h1 : 1 ≤ m) (h8 : m ≤ 8) : m < encLen v ↔ 2 ^ (7 * m) ≤ v.toNat := by
  rw [← Nat.not_le, encLen_le_class v m h1 h8, Nat.not_lt]

/-- Class 9 is what is left when class 8 is too short. -/
theorem encLen_eq_nine_iff (v : Value) : encLen v = 9 ↔ 2 ^ 56 ≤ v.toNat := by
  have h9 := (encLen_range v).2
  rw [← lt_encLen_iff v (m := 8) (by decide) (by decide)]
  omega

/-- `enc_len(v)` is n exactly when n holds v and every class below n is too short. -/
theorem encLen_eq_iff_smallest (v : Value) {n : Nat} (h1 : 1 ≤ n) (h8 : n ≤ 8) :
    encLen v = n ↔ v.toNat < 2 ^ (7 * n) ∧ ∀ m, 1 ≤ m → m < n → 2 ^ (7 * m) ≤ v.toNat := by
  rw [← encLen_le_class v n h1 h8]
  constructor
  · rintro rfl
    exact ⟨Nat.le_refl _, fun m hm hlt => (lt_encLen_iff v hm (by omega)).1 hlt⟩
  · rintro ⟨hle, hshort⟩
    refine Nat.le_antisymm hle (Nat.not_lt.1 fun hlt => ?_)
    have hpos := (encLen_range v).1
    exact Nat.lt_irrefl _ ((lt_encLen_iff v hpos (by omega)).2 (hshort _ hpos hlt))

/-- The canonical range of a class in 2..8: from the first value too large for the class below to the last it holds. -/
theorem encLen_eq_succ_iff (v : Value) {m : Nat} (h1 : 1 ≤ m) (h7 : m ≤ 7) :
    encLen v = m + 1 ↔ 2 ^ (7 * m) ≤ v.toNat ∧ v.toNat ≤ 2 ^ (7 * (m + 1)) - 1 := by
  have hlow := lt_encLen_iff v h1 (by omega)
  have hhigh := encLen_le_class v (m + 1) (by omega) (by omega)
  rw [← hlow, ← Nat.lt_iff_le_pred (Nat.two_pow_pos _), ← hhigh]
  omega

/-- `enc_len` puts the classes that hold v above those that do not. -/
theorem fitsClass_iff_encLen_le (v : Value) {m : Nat} (h1 : 1 ≤ m) (h9 : m ≤ 9) :
    fitsClass m v = true ↔ encLen v ≤ m := by
  rw [fitsClass, decide_eq_true_eq, Config.classBits]
  split
  · subst m
    exact ⟨fun _ => (encLen_range v).2, fun _ => v.isLt⟩
  · exact (encLen_le_class v m h1 (by omega)).symm

/-- A class that holds a value holds every smaller one. -/
theorem fitsClass_of_le {n : Nat} {v w : Value} (hle : v.toNat ≤ w.toNat) (hw : fitsClass n w = true) :
    fitsClass n v = true := by
  rw [fitsClass, decide_eq_true_eq] at hw ⊢
  exact Nat.lt_of_le_of_lt hle hw

/-- The class of the larger value holds the smaller. -/
theorem encLen_mono {v w : Value} (hle : v.toNat ≤ w.toNat) : encLen v ≤ encLen w := by
  obtain ⟨h1, h9⟩ := encLen_range w
  exact (fitsClass_iff_encLen_le v h1 h9).1 (fitsClass_of_le hle (fitsClass_encLen w))

/-! ## The form on the bus (R91, R93) -/

/-- The lanes from `enc_len(v)` up are unused. -/
theorem lane_encBytes_unused (v : Value) {i : Nat} (h : encLen v ≤ i) : lane (encBytes v) i = 0 := by
  have hlt : (encBytes v).toNat < 2 ^ (8 * i) :=
    Nat.lt_of_lt_of_le (encBytes_lt v) (Nat.pow_le_pow_right (by decide) (Nat.mul_le_mul_left 8 h))
  apply BitVec.eq_of_toNat_eq
  rw [lane_toNat, Nat.div_eq_of_lt hlt]
  rfl

/-- The form alone gives its value back, by the length it declares. -/
theorem decValue_encBytes (v : Value) : decValue (encBytes v) (declaredLen (encBytes v)) = v := by
  rw [declaredLen_encBytes]
  exact (window_of_form _ _ v (encLen_range v) (le_lanes_encBytes v)).2

theorem encBytes_injective : Function.Injective encBytes :=
  Function.LeftInverse.injective (g := fun w => decValue w (declaredLen w)) decValue_encBytes

/-- An ENC transfer leaves the request's form in `enc_q`. -/
theorem encQ_of_exec_enc {v : Value} {s t : State} (h : exec (.enc v) s = .next t) :
    t.encQ = ⟨true, BitVec.ofNat 4 (encLen v), encBytes v⟩ := by
  rw [exec_enc_eq] at h
  cases h
  rfl

end Sys2Proof.Machine

namespace Sys2Proof.Proofs

open Sys2Proof.Machine

/-- Settles O8; the arithmetic over `bitlen` is the model's definition, the rest follows from its comparison with each
class. -/
theorem encLenIsTheSmallestFittingClass : Obligations.EncLenIsTheSmallestFittingClass := by
  intro v
  obtain ⟨h1, h9⟩ := encLen_range v
  exact ⟨h1, h9, fun n hn1 hn8 => encLen_eq_iff_smallest v hn1 hn8, encLen_eq_nine_iff v, rfl⟩

/-- Settles O9: class 1 has no class below it and class 9 no larger value; the rows between are one lemma. -/
theorem encLenThresholdTable : Obligations.EncLenThresholdTable := by
  intro v
  have hone : encLen v = 1 ↔ v.toNat ≤ 127 := by
    have h1 := (encLen_range v).1
    have hclass := encLen_le_class v 1 (by decide) (by decide)
    omega
  have hrow {m : Nat} (h1 : 1 ≤ m) (h7 : m ≤ 7) := encLen_eq_succ_iff v h1 h7
  have hnine : encLen v = 9 ↔ 72057594037927936 ≤ v.toNat ∧ v.toNat ≤ 18446744073709551615 :=
    (encLen_eq_nine_iff v).trans (and_iff_left (Nat.le_pred_of_lt v.isLt)).symm
  exact ⟨hone, hrow (m := 1) (by decide) (by decide), hrow (m := 2) (by decide) (by decide),
    hrow (m := 3) (by decide) (by decide), hrow (m := 4) (by decide) (by decide), hrow (m := 5) (by decide) (by decide),
    hrow (m := 6) (by decide) (by decide), hrow (m := 7) (by decide) (by decide), hnine⟩

/-- Settles O10: the state after ENC is the state before with another `enc_q`. -/
theorem encLoadsTheFormAndNothingElse : Obligations.EncLoadsTheFormAndNothingElse := by
  intro v s
  exact ⟨_, exec_enc_eq v s, rfl, encLen_toNat v, encBytes_toNat_nine v, encBytes_toNat v,
    fun i hi _ => lane_encBytes_unused v hi, rfl, rfl, rfl⟩

/-- Settles O11: a class below `enc_len(v)` does not hold v, and `enc_len` is monotone. -/
theorem encFormIsShortestAndMonotone : Obligations.EncFormIsShortestAndMonotone := by
  constructor
  · intro v s
    refine ⟨_, exec_enc_eq v s, ?_, ?_⟩ <;> rw [encLen_toNat]
    · exact fitsClass_encLen v
    · intro m h1 hlt
      have h9 := (encLen_range v).2
      rw [← Bool.not_eq_true, fitsClass_iff_encLen_le v h1 (by omega)]
      omega
  · intro v w s u t t' hv hw hle
    rw [encQ_of_exec_enc hv, encQ_of_exec_enc hw, encLen_toNat, encLen_toNat]
    exact encLen_mono hle

/-- Settles O12: the response is a function of the value, and its bytes give the value back. -/
theorem encIsDeterministicAndInjective : Obligations.EncIsDeterministicAndInjective := by
  intro v w s u t t' hv hw
  rw [encQ_of_exec_enc hv, encQ_of_exec_enc hw]
  constructor
  · rintro ⟨_, hbytes⟩
    exact encBytes_injective hbytes
  · rintro rfl
    exact ⟨rfl, rfl⟩

end Sys2Proof.Proofs
end

section
/-! Proofs about DEC (41_decoder.md R110 to R119): the declared length of a header, the response in the three cases of
R112 to R115, and the lanes it reads. -/

namespace Sys2Proof

/-! ## Headers (R111) -/

/-- The marker of class 1 is the header's bit 0. -/
theorem hdrLen_of_odd {h : Byte} (hodd : h.getLsbD 0 = true) : hdrLen h = 1 := by
  rw [hdrLen_eq_iff_marker h 1 (by decide) (by decide)]
  simpa [BitVec.getLsbD, Nat.testBit_zero] using hodd

/-- Each row of the table of 30_encoding.md R61 is matched by the headers that declare its class and by no other. -/
theorem matches_classRow_iff : ∀ h : Byte, ∀ r ∈ classRows, h &&& r.mask = r.pattern ↔ r.cls = hdrLen h := by
  decide

namespace Machine

/-! ## The response in the cases of R112 to R115 -/

/-- Without an available byte there is no header, so nothing is needed yet. -/
theorem decResponse_of_no_byte {w : Bus} {avail : Len} (h0 : effectiveAvail avail = 0) :
    decResponse w avail = raiseTruncated 0 := by
  have hpos := (declaredLen_range w).1
  rw [decResponse_truncated (by omega), truncatedNeed, if_pos h0]

/-- With a header, and fewer bytes than it declares, the declared length is needed. -/
theorem decResponse_of_cut {w : Bus} {avail : Len} (h1 : 1 ≤ effectiveAvail avail)
    (hcut : effectiveAvail avail < declaredLen w) : decResponse w avail = raiseTruncated (declaredLen w) := by
  rw [decResponse_truncated hcut, truncatedNeed, if_neg (by omega)]

/-- The four bits of `len` and `need` hold the declared length. -/
theorem declaredLen_toNat (w : Bus) : (BitVec.ofNat 4 (declaredLen w)).toNat = declaredLen w := by
  have h9 := (declaredLen_range w).2
  rw [BitVec.toNat_ofNat]
  omega

/-! ## The lanes the response reads (R118) -/

theorem declaredLen_congr {w w' : Bus} (h : lane w' 0 = lane w 0) : declaredLen w' = declaredLen w := by
  rw [declaredLen_eq, declaredLen_eq, h]

/-- The value of a form of length n is read from the first n lanes, header included. -/
theorem decValue_congr {w w' : Bus} {n : Nat} (h : ∀ i, i < n → lane w' i = lane w i) :
    decValue w' n = decValue w n := by
  rw [decValue, decValue]
  split <;> rw [memRead_congr fun j _ hj => h j (by omega)]

/-- A cut form is answered by its header alone. -/
theorem decResponse_congr_of_cut {w w' : Bus} {avail : Len} (h1 : 1 ≤ effectiveAvail avail)
    (hcut : effectiveAvail avail < declaredLen w) (h : lane w' 0 = lane w 0) :
    decResponse w' avail = decResponse w avail := by
  have hdecl := declaredLen_congr h
  rw [decResponse_of_cut h1 hcut, decResponse_of_cut h1 (hdecl ▸ hcut), hdecl]

/-- A whole form is answered by its own lanes alone. -/
theorem decResponse_congr_of_whole {w w' : Bus} {avail : Len} (hwhole : declaredLen w ≤ effectiveAvail avail)
    (h : ∀ i, i < declaredLen w → lane w' i = lane w i) : decResponse w' avail = decResponse w avail := by
  have hdecl := declaredLen_congr (h 0 (declaredLen_range w).1)
  rw [decResponse_decoded hwhole, decResponse_decoded (hdecl ▸ hwhole), hdecl, decValue_congr h]

end Machine

end Sys2Proof

namespace Sys2Proof.Proofs

open Sys2Proof.Machine

/-- Settles O16: the lanes below `enc_len(v)` are ENC's form, and DEC of a whole form answers its value. -/
theorem decOfEncIsTheValue : Obligations.DecOfEncIsTheValue := by
  intro v window avail s t henc hlanes havail
  have hq := encQ_of_exec_enc henc
  rw [hq] at hlanes ⊢
  have hform : lanes window 0 (encLen v) = encForm v := lanes_congr fun i _ hi => hlanes i (by omega)
  refine ⟨_, exec_dec_eq _ _ _, ?_⟩
  rw [State.loadDec_decQ, State.loadDec_encQ, decResponse_of_encForm hform havail]
  exact ⟨rfl, rfl, rfl, rfl, rfl, encLen_toNat v, hq⟩

/-- Settles O14: the frame is that of `loadDec`, the fields are those of the response in each of the three cases. -/
theorem decLoadsTheResponseAndNothingElse : Obligations.DecLoadsTheResponseAndNothingElse := by
  intro bytes avail s
  refine ⟨_, exec_dec_eq _ _ _, ?_, rfl, rfl, rfl, ?_⟩ <;> rw [State.loadDec_decQ]
  · rcases decResponse_cases bytes avail with ⟨need, hq⟩ | ⟨v, hq⟩ <;> rw [hq] <;> rfl
  · rintro a n rfl rfl
    rw [← declaredLen_eq]
    refine ⟨fun h0 => ?_, fun h1 hcut => ?_, fun hwhole => ?_⟩
    · rw [decResponse_of_no_byte h0]
      exact ⟨rfl, rfl, rfl, rfl⟩
    · rw [decResponse_of_cut h1 hcut]
      exact ⟨rfl, rfl, declaredLen_toNat bytes, rfl⟩
    · rw [decResponse_decoded hwhole]
      refine ⟨rfl, declaredLen_toNat bytes, declaredLen_toNat bytes, fun h9 => ?_, fun h8 => decValue_toNat h8⟩
      rw [h9]
      exact decValue_toNat_nine bytes

/-- Settles O17: no byte is available, or the available lanes are a cut form, whose header declares `enc_len(v)`. -/
theorem decOfAPrefixIsTruncated : Obligations.DecOfAPrefixIsTruncated := by
  intro v window avail s t henc hlanes hcut
  rw [encQ_of_exec_enc henc] at hlanes
  refine ⟨_, exec_dec_eq _ _ _, ?_⟩
  rw [State.loadDec_decQ]
  rcases Nat.eq_zero_or_pos avail.toNat with h0 | h1
  · have heff : effectiveAvail avail = 0 := by rw [effectiveAvail, h0, Nat.zero_min]
    rw [decResponse_of_no_byte heff]
    exact ⟨rfl, rfl, rfl, fun h1 => by omega, fun _ => rfl⟩
  · have hprefix : lanes window 0 avail.toNat = (encForm v).take avail.toNat := by
      rw [encForm, take_lanes _ _ hcut.le]
      exact lanes_congr fun i _ hi => hlanes i (by omega)
    rw [decResponse_of_cut_encForm hprefix h1 hcut]
    exact ⟨rfl, rfl, rfl, fun _ => encLen_toNat v, fun h0 => by omega⟩

/-- Settles O18: DEC of a whole form of any class that holds the value; 0 is held by class 2 and by class 9. -/
theorem overlongFormsDecode : Obligations.OverlongFormsDecode := by
  refine ⟨?_, fun s => ⟨_, exec_dec_eq _ _ s, ?_⟩, fun s => ⟨_, exec_dec_eq _ _ s, ?_⟩⟩
  · rintro n v _ window avail s h1 h9 hfits henc rfl havail
    refine ⟨_, exec_dec_eq _ _ s, ?_⟩
    rw [State.loadDec_decQ, decResponse_of_form ⟨h1, h9⟩ hfits henc havail]
    refine ⟨rfl, rfl, ?_⟩
    rw [decodedResponse, BitVec.toNat_ofNat]
    omega
  · rw [State.loadDec_decQ]
    exact decResponse_of_form (n := 2) (v := 0) (by decide) (by decide) (by decide) (by decide)
  · rw [State.loadDec_decQ]
    exact decResponse_of_form (n := 9) (v := 0) (by decide) (by decide) (by decide) (by decide)

/-- Settles O19: the response is the same in each case, and DEC's next state is the response loaded. -/
theorem lanesWithNoEffectOnTheResponse : Obligations.LanesWithNoEffectOnTheResponse := by
  rintro w w' avail s t t' a n rfl rfl ht ht' hcase
  rw [← declaredLen_eq] at hcase
  rw [exec_dec_eq] at ht ht'
  cases ht
  cases ht'
  have hresp : decResponse w' avail = decResponse w avail := by
    obtain h0 | ⟨h1, hcut, hlane⟩ | ⟨hwhole, hlanes⟩ := hcase
    · rw [decResponse_of_no_byte h0, decResponse_of_no_byte h0]
    · exact decResponse_congr_of_cut h1 hcut hlane
    · exact decResponse_congr_of_whole hwhole hlanes
  rw [hresp]

/-- Settles O1. -/
theorem everyHeaderMatchesExactlyItsClassRow : Obligations.EveryHeaderMatchesExactlyItsClassRow := by
  refine ⟨fun h => ?_, rfl, rfl⟩
  obtain ⟨h1, h9⟩ := hdrLen_range h
  exact ⟨h1, h9, rfl, headerClass_eq_hdrLen h, hdrLen_of_odd, matches_classRow_iff h⟩

end Sys2Proof.Proofs
end

section
/-! Proofs about the exceptional response (60_exceptions.md R141) and the independence of the two units (R150). -/

namespace Sys2Proof.Machine

/-- Of the pins, the encoder's register after an edge reads only `rst` and the encoder's request (R150). -/
theorem encAfter_congr {p p' : Inputs} (hrst : p.rst = p'.rst) (hvalid : p.encReqValid = p'.encReqValid)
    (hvalue : p.encReqValue = p'.encReqValue) (ready : Bool) (q : EncQ) :
    encAfter p ready q = encAfter p' ready q := by
  rw [encAfter, encAfter, hrst, hvalid, hvalue]

/-- Of the pins, the decoder's register after an edge reads only `rst` and the decoder's request (R150). -/
theorem decAfter_congr {p p' : Inputs} (hrst : p.rst = p'.rst) (hvalid : p.decReqValid = p'.decReqValid)
    (hbytes : p.decReqBytes = p'.decReqBytes) (havail : p.decReqAvail = p'.decReqAvail) (ready : Bool) (q : DecQ) :
    decAfter p ready q = decAfter p' ready q := by
  rw [decAfter, decAfter, hrst, hvalid, hbytes, havail]

end Sys2Proof.Machine

namespace Sys2Proof.Proofs

open Sys2Proof.Machine

/-- Settles O15: without an available byte DEC answers `raiseTruncated 0`; with one, the form is cut, and its header
declares two lanes or more, because the header itself is available. -/
theorem truncatedResponseFields : Obligations.TruncatedResponseFields := by
  intro bytes avail s htrunc
  rw [← declaredLen_eq] at htrunc ⊢
  refine ⟨_, exec_dec_eq _ _ _, ?_⟩
  rw [State.loadDec_decQ]
  rcases Nat.eq_zero_or_pos avail.toNat with h0 | h1
  · have heff : effectiveAvail avail = 0 := by rw [effectiveAvail, h0, Nat.zero_min]
    rw [decResponse_of_no_byte heff]
    exact ⟨rfl, rfl, rfl, fun h1 => by omega, fun _ => rfl⟩
  · have hcut : effectiveAvail avail < declaredLen bytes := htrunc.resolve_left (by omega)
    have heff : 1 ≤ effectiveAvail avail := le_min h1 (by decide)
    have hneed : (decResponse bytes avail).need.toNat = declaredLen bytes := by
      rw [decResponse_of_cut heff hcut]
      exact declaredLen_toNat bytes
    rw [hneed, decResponse_of_cut heff hcut]
    exact ⟨rfl, rfl, rfl, fun _ => ⟨rfl, by omega, (declaredLen_range bytes).2⟩, fun h0 => by omega⟩

/-- Settles O35: a reset edge loads each register with its reset value, and at any other edge each register is a function
of its own old value and its own pins. -/
theorem unitsAreIndependent : Obligations.UnitsAreIndependent := by
  intro s t s' t' hs ht hrst
  obtain ⟨hr, rfl⟩ | ⟨e, d, hr, he, hd, rfl⟩ := step_cases hs <;>
    obtain ⟨hr', rfl⟩ | ⟨e', d', hr', he', hd', rfl⟩ := step_cases ht
  case inl.inl => exact ⟨fun _ _ _ _ _ => rfl, fun _ _ _ _ => rfl⟩
  case inl.inr => exact absurd (hr.symm.trans (hrst.trans hr')) (by decide)
  case inr.inl => exact absurd (hr.symm.trans (hrst.trans hr')) (by decide)
  case inr.inr =>
    refine ⟨fun hq hvalid hbytes havail hready => ?_, fun hq hvalid hvalue hready => ?_⟩
    · rw [hd, hd'] at hready
      cases hready
      exact hq ▸ decAfter_congr hrst hvalid hbytes havail d s.decQ
    · rw [he, he'] at hready
      cases hready
      exact hq ▸ encAfter_congr hrst hvalid hvalue e s.encQ

end Sys2Proof.Proofs
end

section
/-! Proofs about the handshake and the cycle step of the units (70_reset_and_hazards.md R163 to R168), at one edge and over
runs, and about the edges without a next state (R171). -/

namespace Sys2Proof.Machine

/-! ## `req_ready` (R165) -/

theorem reqReady_eq_true_iff {rst valid ready : Bool} :
    reqReady rst valid ready = true ↔ rst = false ∧ (valid = false ∨ ready = true) := by
  simp [reqReady]

/-- A unit whose response may leave is ready, whatever it holds. -/
@[simp] theorem reqReady_ready (valid : Bool) : reqReady false valid true = true :=
  reqReady_eq_true_iff.2 ⟨rfl, .inr rfl⟩

/-- A unit that holds a response which may not leave is not ready. -/
@[simp] theorem reqReady_held (rst : Bool) : reqReady rst true false = false := by
  simp [reqReady]

/-! ## A unit's register after an edge, in the three cases of R163 -/

section EncAfter

variable {p : Inputs} {ready : Bool} {q : EncQ}

theorem encAfter_of_not_taken (h : (p.encReqValid && reqReady p.rst q.valid ready) = false) :
    encAfter p ready q = ⟨q.valid && !ready, q.len, q.bytes⟩ := by
  simp [encAfter, h]

variable (hrst : p.rst = false)
include hrst

theorem encTaken_eq_true_iff : (p.encReqValid && reqReady p.rst q.valid ready) = true ↔
    p.encReqValid = true ∧ (q.valid = false ∨ ready = true) := by
  rw [Bool.and_eq_true_iff, reqReady_eq_true_iff, and_iff_right hrst]

theorem encAfter_of_taken (hvalid : p.encReqValid = true) (hfree : q.valid = false ∨ ready = true) :
    encAfter p ready q = ⟨true, BitVec.ofNat 4 (encLen p.encReqValue), encBytes p.encReqValue⟩ := by
  rw [encAfter, if_pos ((encTaken_eq_true_iff hrst).2 ⟨hvalid, hfree⟩)]

variable (hno : ¬ (p.encReqValid = true ∧ (q.valid = false ∨ ready = true)))
include hno

theorem encAfter_of_drained (hready : ready = true) : encAfter p ready q = { q with valid := false } := by
  rw [encAfter_of_not_taken (Bool.eq_false_iff.2 (mt (encTaken_eq_true_iff hrst).1 hno)), hready, Bool.not_true,
    Bool.and_false]

theorem encAfter_of_kept (hkeep : ¬ (q.valid = true ∧ ready = true)) : encAfter p ready q = q := by
  have hvalid : (q.valid && !ready) = q.valid := Bool.and_eq_left_iff_imp.2 fun hv => by simpa [hv] using hkeep
  rw [encAfter_of_not_taken (Bool.eq_false_iff.2 (mt (encTaken_eq_true_iff hrst).1 hno)), hvalid]

end EncAfter

section DecAfter

variable {p : Inputs} {ready : Bool} {q : DecQ}

theorem decAfter_of_not_taken (h : (p.decReqValid && reqReady p.rst q.valid ready) = false) :
    decAfter p ready q = ⟨q.valid && !ready, q.err, q.len, q.need, q.value⟩ := by
  simp [decAfter, h]

variable (hrst : p.rst = false)
include hrst

theorem decTaken_eq_true_iff : (p.decReqValid && reqReady p.rst q.valid ready) = true ↔
    p.decReqValid = true ∧ (q.valid = false ∨ ready = true) := by
  rw [Bool.and_eq_true_iff, reqReady_eq_true_iff, and_iff_right hrst]

theorem decAfter_of_taken (hvalid : p.decReqValid = true) (hfree : q.valid = false ∨ ready = true) :
    decAfter p ready q = decResponse p.decReqBytes p.decReqAvail := by
  rw [decAfter, if_pos ((decTaken_eq_true_iff hrst).2 ⟨hvalid, hfree⟩)]

variable (hno : ¬ (p.decReqValid = true ∧ (q.valid = false ∨ ready = true)))
include hno

theorem decAfter_of_drained (hready : ready = true) : decAfter p ready q = { q with valid := false } := by
  rw [decAfter_of_not_taken (Bool.eq_false_iff.2 (mt (decTaken_eq_true_iff hrst).1 hno)), hready, Bool.not_true,
    Bool.and_false]

theorem decAfter_of_kept (hkeep : ¬ (q.valid = true ∧ ready = true)) : decAfter p ready q = q := by
  have hvalid : (q.valid && !ready) = q.valid := Bool.and_eq_left_iff_imp.2 fun hv => by simpa [hv] using hkeep
  rw [decAfter_of_not_taken (Bool.eq_false_iff.2 (mt (decTaken_eq_true_iff hrst).1 hno)), hvalid]

end DecAfter

/-! ## The responses held after an edge -/

/-- Every answer DEC gives is a response to hold. -/
@[simp] theorem decResponse_valid (w : Bus) (a : Len) : (decResponse w a).valid = true := by
  rcases decResponse_cases w a with ⟨need, hq⟩ | ⟨v, hq⟩ <;> rw [hq] <;> rfl

theorem encHeld_encAfter (p : Inputs) (ready : Bool) (q : EncQ) (dq : DecQ) (ps : List Inputs) (draws : Nat) :
    State.encHeld ⟨encAfter p ready q, dq, ps, draws⟩ =
      if p.encReqValid && reqReady p.rst q.valid ready then
        [(BitVec.ofNat 4 (encLen p.encReqValue), encBytes p.encReqValue)]
      else if q.valid && !ready then [(q.len, q.bytes)] else [] := by
  simp only [State.encHeld, encAfter]
  split <;> rfl

theorem decHeld_decAfter (p : Inputs) (ready : Bool) (eq : EncQ) (q : DecQ) (ps : List Inputs) (draws : Nat) :
    State.decHeld ⟨eq, decAfter p ready q, ps, draws⟩ =
      if p.decReqValid && reqReady p.rst q.valid ready then [decResponse p.decReqBytes p.decReqAvail]
      else if q.valid && !ready then [q] else [] := by
  simp only [State.decHeld, decAfter]
  split
  · simp
  · obtain ⟨valid, err, len, need, value⟩ := q
    cases valid <;> cases ready <;> rfl

theorem encHeld_length_le_one (s : State) : s.encHeld.length ≤ 1 := by
  rw [State.encHeld]
  split <;> simp

theorem decHeld_length_le_one (s : State) : s.decHeld.length ≤ 1 := by
  rw [State.decHeld]
  split <;> simp

/-! ## The transfers of an edge where a `rsp_ready` pin has a level -/

section Transfers

variable {s : State} {ready : Bool}

theorem State.encRequest_of_level (h : s.sampled.encRspReady = .level ready) : s.encRequest =
    if s.sampled.encReqValid && reqReady s.sampled.rst s.encQ.valid ready then [s.sampled.encReqValue] else [] := by
  rw [State.encRequest, State.encRspReadyNow, h]
  rfl

theorem State.decRequest_of_level (h : s.sampled.decRspReady = .level ready) : s.decRequest =
    if s.sampled.decReqValid && reqReady s.sampled.rst s.decQ.valid ready then
      [(s.sampled.decReqBytes, s.sampled.decReqAvail)] else [] := by
  rw [State.decRequest, State.decRspReadyNow, h]
  rfl

theorem State.encDelivery_of_level (hrst : s.sampled.rst = false) (h : s.sampled.encRspReady = .level ready) :
    s.encDelivery = if s.encQ.valid && ready then [(s.encQ.len, s.encQ.bytes)] else [] := by
  rw [State.encDelivery, State.encRspReadyNow, h, hrst]
  rfl

theorem State.decDelivery_of_level (hrst : s.sampled.rst = false) (h : s.sampled.decRspReady = .level ready) :
    s.decDelivery = if s.decQ.valid && ready then [s.decQ] else [] := by
  rw [State.decDelivery, State.decRspReadyNow, h, hrst]
  rfl

end Transfers

/-! ## One response for each request, at one edge and over a run (R168) -/

/-- A response register is a queue of one place: what leaves and then what stays is what was there and then the answer to
the request taken, because a request is taken only where no response is left behind. -/
theorem delivered_append_held {ρ : Type} (offered valid ready : Bool) (old answer : ρ) :
    (if valid && ready then [old] else []) ++
        (if offered && reqReady false valid ready then [answer] else if valid && !ready then [old] else []) =
      (if valid then [old] else []) ++ (if offered && reqReady false valid ready then [answer] else []) := by
  cases valid with
  | false => simp
  | true =>
    cases ready <;> simp

theorem encDelivery_append_encHeld {s t : State} (hrst : s.sampled.rst = false) (h : step s = .next t) :
    s.encDelivery ++ t.encHeld =
      s.encHeld ++ s.encRequest.map (fun v => (BitVec.ofNat 4 (encLen v), encBytes v)) := by
  obtain ⟨hr, -⟩ | ⟨e, d, -, he, -, rfl⟩ := step_cases h
  · exact absurd (hr.symm.trans hrst) (by decide)
  · rw [State.encDelivery_of_level hrst he, State.encRequest_of_level he, encHeld_encAfter, hrst,
      apply_ite (List.map _)]
    exact delivered_append_held _ _ _ _ _

theorem decDelivery_append_decHeld {s t : State} (hrst : s.sampled.rst = false) (h : step s = .next t) :
    s.decDelivery ++ t.decHeld = s.decHeld ++ s.decRequest.map (fun r => decResponse r.1 r.2) := by
  obtain ⟨hr, -⟩ | ⟨e, d, -, -, hd, rfl⟩ := step_cases h
  · exact absurd (hr.symm.trans hrst) (by decide)
  · rw [State.decDelivery_of_level hrst hd, State.decRequest_of_level hd, decHeld_decAfter, hrst,
      apply_ite (List.map _)]
    exact delivered_append_held _ _ _ _ _

theorem eventsOver_succ {α : Type} (events : State → List α) {k : Nat} {s t : State} (h : step s = .next t) :
    eventsOver events (k + 1) s = events s ++ eventsOver events k t := by
  simp only [eventsOver, h]

theorem noResetOver_succ {k : Nat} {s t : State} (h : step s = .next t) :
    noResetOver (k + 1) s = true ↔ s.sampled.rst = false ∧ noResetOver k t = true := by
  simp only [noResetOver, h, Bool.and_eq_true, Bool.not_eq_true']

/-- What holds of the responses and requests of each edge holds of those of a run, by induction on the edges: the
responses held between two edges cancel. -/
theorem eventsOver_append_held {α ρ : Type} {delivery held : State → List ρ} {request : State → List α}
    {answer : α → ρ}
    (hedge : ∀ {s t : State}, s.sampled.rst = false → step s = .next t →
      delivery s ++ held t = held s ++ (request s).map answer)
    {k : Nat} {s t : State} (hrun : Sys2Proof.core.run k s = .next t) (hno : noResetOver k s = true) :
    eventsOver delivery k s ++ held t = held s ++ (eventsOver request k s).map answer := by
  induction k generalizing s with
  | zero =>
    cases hrun
    simp [eventsOver]
  | succ k ih =>
    obtain ⟨u, hstep, hrest⟩ := run_succ hrun
    obtain ⟨hrst, hno'⟩ := (noResetOver_succ hstep).1 hno
    rw [eventsOver_succ _ hstep, eventsOver_succ _ hstep]
    calc (delivery s ++ eventsOver delivery k u) ++ held t
        = delivery s ++ (held u ++ (eventsOver request k u).map answer) := by rw [List.append_assoc, ih hrest hno']
      _ = held s ++ (request s ++ eventsOver request k u).map answer := by
        rw [← List.append_assoc, hedge hrst hstep, List.map_append, List.append_assoc]

/-! ## Pins without effect (R167) -/

/-- The step over a scheduled record is the edge with its pins. -/
theorem step_scheduled (s : State) (p : Inputs) (ps : List Inputs) :
    step { s with inputs := p :: ps } = edge p { s with inputs := ps } := rfl

/-- An edge depends on the pins through `rst`, the drives of `rsp_ready` and what each unit's register becomes. -/
theorem edge_congr {p p' : Inputs} {s : State} (hrst : p'.rst = p.rst) (he : p'.encRspReady = p.encRspReady)
    (hd : p'.decRspReady = p.decRspReady)
    (henc : ∀ e, p.encRspReady = .level e → encAfter p' e s.encQ = encAfter p e s.encQ)
    (hdec : ∀ d, p.decRspReady = .level d → decAfter p' d s.decQ = decAfter p d s.decQ) : edge p' s = edge p s := by
  rw [edge, edge, hrst, he, hd]
  split
  · rfl
  · cases he' : p.encRspReady with
    | fromReqReady b => rfl
    | level e =>
      cases hd' : p.decRspReady with
      | fromReqReady b => rfl
      | level d => simp only [transferEdge_eq, henc e he', hdec d hd']

/-- Where its request is not taken, of the pins the encoder's register reads only `rst` and the request's `valid`. -/
theorem encAfter_congr_of_not_taken {p p' : Inputs} {ready : Bool} {q : EncQ} (hrst : p'.rst = p.rst)
    (hvalid : p'.encReqValid = p.encReqValid) (h : (p.encReqValid && reqReady p.rst q.valid ready) = false) :
    encAfter p' ready q = encAfter p ready q := by
  rw [encAfter_of_not_taken h, encAfter_of_not_taken (by rwa [hrst, hvalid])]

/-- Where no ENC request transfers, the pins of the encoder's channel do not select one. -/
theorem encTaken_of_encRequest_nil {s : State} {e : Bool} (he : s.sampled.encRspReady = .level e)
    (h : s.encRequest = []) : (s.sampled.encReqValid && reqReady s.sampled.rst s.encQ.valid e) = false := by
  rw [State.encRequest_of_level he] at h
  simpa using h

/-- Where its request is not taken, of the pins the decoder's register reads only `rst` and the request's `valid`. -/
theorem decAfter_congr_of_not_taken {p p' : Inputs} {ready : Bool} {q : DecQ} (hrst : p'.rst = p.rst)
    (hvalid : p'.decReqValid = p.decReqValid) (h : (p.decReqValid && reqReady p.rst q.valid ready) = false) :
    decAfter p' ready q = decAfter p ready q := by
  rw [decAfter_of_not_taken h, decAfter_of_not_taken (by rwa [hrst, hvalid])]

/-- Where no DEC request transfers, the pins of the decoder's channel do not select one. -/
theorem decTaken_of_decRequest_nil {s : State} {d : Bool} (hd : s.sampled.decRspReady = .level d)
    (h : s.decRequest = []) : (s.sampled.decReqValid && reqReady s.sampled.rst s.decQ.valid d) = false := by
  rw [State.decRequest_of_level hd] at h
  simpa using h

/-! ## Combinational loops (R171) -/

/-- Without a loop both `rsp_ready` pins have levels. -/
theorem State.levels_of_noLoop {s : State} (h : s.noLoop = true) :
    ∃ e d, s.sampled.encRspReady = .level e ∧ s.sampled.decRspReady = .level d := by
  cases he : s.sampled.encRspReady with
  | fromReqReady b => simp [State.noLoop, he, ReadyDrive.level?] at h
  | level e =>
    cases hd : s.sampled.decRspReady with
    | fromReqReady b => simp [State.noLoop, hd, ReadyDrive.level?] at h
    | level d => exact ⟨e, d, rfl, rfl⟩

/-- A loop at an edge that is no reset edge is refused, under the name of the first unit that has one. -/
theorem step_loop {s : State} (hrst : s.sampled.rst = false) (h : s.noLoop = false) :
    ∃ u, step s = .refused (.combinationalLoop u) := by
  cases he : s.sampled.encRspReady with
  | fromReqReady b => exact ⟨.encoder, by simp [step, clockEdge, edge, hrst, he]⟩
  | level e =>
    cases hd : s.sampled.decRspReady with
    | fromReqReady b => exact ⟨.decoder, by simp [step, clockEdge, edge, hrst, he, hd]⟩
    | level d => simp [State.noLoop, he, hd, ReadyDrive.level?] at h

end Sys2Proof.Machine

namespace Sys2Proof.Proofs

open Sys2Proof.Machine

/-- Settles O38: the law of a queue of one place at each edge, carried over the run. -/
theorem unitsAnswerEachRequestOnceInOrder : Obligations.UnitsAnswerEachRequestOnceInOrder := by
  intro k s t hrun hno
  exact ⟨eventsOver_append_held encDelivery_append_encHeld hrun hno,
    eventsOver_append_held decDelivery_append_decHeld hrun hno, encHeld_length_le_one t, decHeld_length_le_one t⟩

/-- Settles O27. -/
theorem eachUnitStepsByItsCycleRule : Obligations.EachUnitStepsByItsCycleRule := by
  constructor
  · intro s hr
    exact ⟨_, step_reset hr, rfl, rfl⟩
  · rintro s p e d rfl hr he hd
    exact ⟨_, step_transfer hr he hd, rfl, rfl,
      encAfter_of_taken hr, fun hno _ => encAfter_of_drained hr hno, encAfter_of_kept hr,
      decAfter_of_taken hr, fun hno _ => decAfter_of_drained hr hno, decAfter_of_kept hr⟩

/-- Settles O33: a unit that holds a response which may not leave is not ready, so it takes no request and keeps its
register. -/
theorem aHeldResponseDoesNotChange : Obligations.AHeldResponseDoesNotChange := by
  intro s t hr hstep
  obtain ⟨hr', -⟩ | ⟨e, d, -, he, hd, rfl⟩ := step_cases hstep
  · exact absurd (hr'.symm.trans hr) (by decide)
  · refine ⟨fun hheld hready => ?_, fun hheld hready => ?_⟩
    · obtain rfl : e = false := ReadyDrive.level.inj (he.symm.trans hready)
      exact ⟨encAfter_of_kept hr (by simp [hheld]) (by simp), by simp [State.encRequest_of_level he, hheld]⟩
    · obtain rfl : d = false := ReadyDrive.level.inj (hd.symm.trans hready)
      exact ⟨decAfter_of_kept hr (by simp [hheld]) (by simp), by simp [State.decRequest_of_level hd, hheld]⟩

/-- Settles O34: a register reads its request's fields only in the case that takes the request. -/
theorem requestFieldsMatterOnlyAtTheirTransfer : Obligations.RequestFieldsMatterOnlyAtTheirTransfer := by
  intro s p ps
  refine ⟨fun v hnone => ?_, fun w a hnone => ?_⟩ <;> rw [step_scheduled, step_scheduled]
  · refine edge_congr rfl rfl rfl (fun e he => ?_) fun d _ => decAfter_congr rfl rfl rfl rfl d _
    have hno := encTaken_of_encRequest_nil (s := { s with inputs := p :: ps }) he hnone
    exact encAfter_congr_of_not_taken rfl rfl hno
  · refine edge_congr rfl rfl rfl (fun e _ => encAfter_congr rfl rfl rfl e _) fun d hd => ?_
    have hno := decTaken_of_decRequest_nil (s := { s with inputs := p :: ps }) hd hnone
    exact decAfter_congr_of_not_taken rfl rfl hno

/-- Settles O36: a reset edge and an edge with levels answer a next state, and what is left is a loop. -/
theorem stepStopsOnlyOnACombinationalLoop : Obligations.StepStopsOnlyOnACombinationalLoop := by
  refine fun s => ⟨fun h => ?_, step_loop⟩
  cases hr : s.sampled.rst with
  | true => exact ⟨_, step_reset hr⟩
  | false =>
    obtain ⟨e, d, he, hd⟩ := State.levels_of_noLoop (h.resolve_left (by simp [hr]))
    exact ⟨_, step_transfer hr he hd⟩

/-- Settles O37: the latency is one edge, and a unit whose response may leave takes what it is offered. -/
theorem oneOperationPerCycleAtOneCycleLatency : Obligations.OneOperationPerCycleAtOneCycleLatency := by
  intro s hr he hd
  refine ⟨_, run_succ_of_step (k := 0) (step_transfer hr he hd), ?_⟩
  rw [State.encRequest_of_level he, State.decRequest_of_level hd, encHeld_encAfter, decHeld_decAfter, hr]
  refine ⟨fun hoffered => ?_, fun hnone => ?_, fun hoffered => ?_, fun hnone => ?_⟩
  · simp [hoffered]
  · simp [hnone]
  · simp [hoffered]
  · simp [hnone]

/-- Settles O31. -/
theorem reqReadyEquation : Obligations.ReqReadyEquation :=
  fun _ _ _ _ => ⟨reqReady_eq_true_iff, reqReady_eq_true_iff⟩

end Sys2Proof.Proofs
end

section
/-! Proofs about the step that runs one placed encoding (30_encoding.md R71, R79; log 2, log 3): a request selected alone,
and a whole form as the DEC request that presents it. -/

namespace Sys2Proof

/-! ## What an encoding that decodes is -/

/-- A select vector that names one instruction has one bit set, the bit of that instruction's channel. -/
theorem decode_request_cases {select : BitVec 2} {v : Value} {w : Bus} {a : Len} {i : Instr}
    (h : decode (.request select v w a) = .ok i) :
    (select.getLsbD 0 = true ∧ select.getLsbD 1 = false ∧ i = .enc v) ∨
    (select.getLsbD 0 = false ∧ select.getLsbD 1 = true ∧ i = .dec w a) := by
  have hsel := Machine.decode_request_eq_ok_iff.1 h
  rw [selectedInstrs] at hsel
  cases h0 : select.getLsbD 0 with
  | true => cases h1 : select.getLsbD 1 with
    | true => rw [h0, h1] at hsel; cases hsel
    | false => rw [h0, h1] at hsel; exact .inl ⟨rfl, rfl, (List.cons.inj hsel).1.symm⟩
  | false => cases h1 : select.getLsbD 1 with
    | true => rw [h0, h1] at hsel; exact .inr ⟨rfl, rfl, (List.cons.inj hsel).1.symm⟩
    | false => rw [h0, h1] at hsel; cases hsel

/-- A byte string that is one form has the length its header declares, so it fits the bus. -/
theorem length_le_nine_of_decodeForm {bs : List Byte} {i : Instr} (h : decodeForm bs = .ok (i, [])) :
    bs.length ≤ 9 := by
  obtain ⟨b, -, -, -, -, hrest⟩ := decodeForm_ok h
  exact (List.drop_eq_nil_iff.1 hrest.symm).trans (hdrLen_range b).2

theorem decodeTableWord_eq_some_iff {nbits w : Nat} {i : Instr} :
    decodeTableWord nbits w = some i ↔ decode (encodedOfTableWord nbits w) = .ok i := by
  rw [decodeTableWord]
  cases decode (encodedOfTableWord nbits w) <;> simp [Except.toOption]

namespace Machine

/-! ## An edge with one request -/

/-- Where the encoder alone is given a request, with its response free to leave, the next edge is ENC of it. -/
theorem step_enc_alone {p : Inputs} (hrst : p.rst = false) (henc : p.encReqValid = true)
    (he : p.encRspReady = .level true) (hdec : p.decReqValid = false) (hd : p.decRspReady = .level false) (s : State) :
    step { s with inputs := p :: s.inputs } = exec (.enc p.encReqValue) s := by
  rw [step_transfer (s := { s with inputs := p :: s.inputs }) hrst he hd, exec_enc_eq]
  have htaken := encAfter_of_taken (q := s.encQ) hrst henc (.inr rfl)
  have hkept := decAfter_of_kept (ready := false) (q := s.decQ) hrst (by simp [hdec]) (by simp)
  simp [State.sampled, State.advance, htaken, hkept]

/-- Where the decoder alone is given a request, with its response free to leave, the next edge is DEC of it. -/
theorem step_dec_alone {p : Inputs} (hrst : p.rst = false) (henc : p.encReqValid = false)
    (he : p.encRspReady = .level false) (hdec : p.decReqValid = true) (hd : p.decRspReady = .level true) (s : State) :
    step { s with inputs := p :: s.inputs } = exec (.dec p.decReqBytes p.decReqAvail) s := by
  rw [step_transfer (s := { s with inputs := p :: s.inputs }) hrst he hd, exec_dec_eq]
  have hkept := encAfter_of_kept (ready := false) (q := s.encQ) hrst (by simp [henc]) (by simp)
  have htaken := decAfter_of_taken (q := s.decQ) hrst hdec (.inr rfl)
  simp [State.sampled, State.advance, htaken, hkept, State.loadDec]

/-! ## An edge with the pins of one encoding -/

/-- The pins of a form carry the form: the lanes they make available are its bytes (R79). -/
theorem lanes_inputsOfEncoded_form {bs : List Byte} (h9 : bs.length ≤ 9) :
    lanes (inputsOfEncoded (.form bs)).decReqBytes 0 (effectiveAvail (inputsOfEncoded (.form bs)).decReqAvail) = bs := by
  have havail : effectiveAvail (BitVec.ofNat 4 (min bs.length 15)) = bs.length := by
    rw [effectiveAvail, Config.maxLen, BitVec.toNat_ofNat]
    omega
  simp only [inputsOfEncoded, havail, lanes_busOfBytes bs h9]

/-- The pins of an encoding that names one instruction make the next edge exactly that instruction, whatever the
registers hold. -/
theorem step_inputsOfEncoded {e : Encoded} {i : Instr} (h : decode e = .ok i) (s : State) :
    step { s with inputs := inputsOfEncoded e :: s.inputs } = exec i s := by
  cases e with
  | request select v w a =>
    obtain ⟨h0, h1, rfl⟩ | ⟨h0, h1, rfl⟩ := decode_request_cases h
    · exact step_enc_alone rfl h0 (congrArg _ h0) h1 (congrArg _ h1) s
    · exact step_dec_alone rfl h0 (congrArg _ h0) h1 (congrArg _ h1) s
  | form bs =>
    have hform := decode_form_eq_ok_iff.1 h
    have hlanes := lanes_inputsOfEncoded_form (length_le_nine_of_decodeForm hform)
    rw [step_dec_alone rfl rfl rfl rfl rfl s, exec_dec_eq_exec_of_decodeForm (hlanes.symm ▸ hform)]

end Machine

end Sys2Proof

namespace Sys2Proof.Proofs

open Sys2Proof.Machine

/-- Settles O30: a table word's encoding names one instruction, and the step runs what its pins present. -/
theorem stepRunsTheFetchedTableWord : Obligations.StepRunsTheFetchedTableWord :=
  fun s _ _ _ h => step_inputsOfEncoded (decodeTableWord_eq_some_iff.1 h) s

end Sys2Proof.Proofs
end
